-- ==== Sys2Proof/Word.lean ====
section
/-! DEFINITION. The bit-vector types of the spec (00_scope.md rule R9): a byte, and the 16-bit
pattern of a device register. Nothing else stands here; the arithmetic is in Machine/. -/

namespace Sys2Proof

/-- `u8`: one byte of a bus frame or of half a register (R8, R9). -/
abbrev Byte := BitVec 8

/-- A 16-bit pattern: a Configuration word, a conversion word, or an `s16` (R9, R24, R28). -/
abbrev Word16 := BitVec 16

end Sys2Proof
end

