-- ==== Sys2Proof/Config.lean ====
section
/-! DEFINITION. What is fixed for the machine and open in the spec: the parameters of 00_scope.md
rule R7, and the free values of 70_reset_and_hazards.md rules R205, R210 and R211. Every constant
here is opaque: nothing in Lean can evaluate it, so a claim about it holds whatever it is. -/

namespace Sys2Proof

/-- The sample of the `n`-th draw, when draw `n` is a conversion's result (R210, U4). Log 8. -/
opaque Config.conversionSample : Nat → Word16

/-- Whether the device at a bus address converts continuously after power-up: open, since its Configuration
contents are unknown then (R205, U3). Log 8. -/
opaque Config.powerUpContinuous : BitVec 7 → Bool

/-- What the Conversion register of the device at a bus address holds after power-up: open, and the same
at every read until a conversion replaces it (R205, R60). Log 8. -/
opaque Config.powerUpConversion : BitVec 7 → Word16

/-- A free 16-bit draw: a conversion read that is too early or of a violated sequence (R210, R211,
U1, U2), the Configuration register when its contents are unknown (R205, U3), or an open word that the
Conversion register is left with (R60; log 11, log 33). Log 8. -/
opaque Config.freeWord : Nat → Word16

/-- A free OS bit, for a read-back at which R80 does not settle it (U16). Log 9. -/
opaque Config.freeBit : Nat → BitVec 1

/-- SETTLE_MARGIN, in ticks (R7, D19, U13): an open, non-negative time. Log 10. -/
opaque Config.settleMargin : Nat

/-- What W_IN has above its least value 3 (R7, D4, U14). Log 26. -/
opaque Config.wInAboveThree : Nat

/-- W_IN, the width of each field input port of ENC in hardware: open, at least 3 (R7). The model
itself takes unbounded naturals (R71, D4). Log 26. -/
def Config.wIn : Nat := 3 + Config.wInAboveThree

/-- DEV_ADDR, the 7-bit bus address of the device (R7, R53, D26, U15). No block operation reads it. -/
opaque Config.devAddr : BitVec 7

end Sys2Proof
end

