-- ==== Sys2Proof/Syntax.lean ====
section
/-! DEFINITION. The syntax: the nine fields, the eight operations (30_encoding.md rule R72), the
request as it stands on the request port (R70, R71), and the assembler line (R92, R93). -/

namespace Sys2Proof

/-- The nine fields of the Configuration word, in field index order (10_state.md R24). -/
inductive Field where
  | os | mux | pga | mode | dr | cmode | cpol | clat | cque
  deriving DecidableEq, Repr

/-- One constructor for each row of the opcode table, with its operand ports (R71, R72). -/
inductive Instr where
  /-- Pack nine field values; each operand an unbounded natural (R110, D4). -/
  | enc (os mux pga mode dr cmode cpol clat cque : Nat)
  /-- Unpack a Configuration word's two bytes (R115). -/
  | decf (msb lsb : Byte)
  /-- Decode the conversion word; the operand is a byte list, and only two bytes make a request (R130, D9). -/
  | decr (bytes : List Byte)
  /-- Look up a PGA code (R141). -/
  | gainlut (gain : BitVec 3)
  /-- Scale a RawSample, an `s16` (R150). -/
  | scale (raw : Word16) (gain : BitVec 3)
  /-- Channel label to MUX code (R120). -/
  | chsel (label : String)
  /-- Form the Configuration write frame (R160). -/
  | cfgframe (msb lsb : Byte)
  /-- Form the conversion read frame (R161). -/
  | convframe
  deriving DecidableEq, Repr

/-- The request port: the 4-bit operation select and every operand port of R71. An operation reads
only its own ports (R70, R91), so the others do not matter. `bytes` carries DECR's `high, low`.
Log 1. -/
structure Request where
  op    : BitVec 4
  os    : Nat := 0
  mux   : Nat := 0
  pga   : Nat := 0
  mode  : Nat := 0
  dr    : Nat := 0
  cmode : Nat := 0
  cpol  : Nat := 0
  clat  : Nat := 0
  cque  : Nat := 0
  msb   : Byte := 0
  lsb   : Byte := 0
  bytes : List Byte := [0, 0]
  gain  : BitVec 3 := 0
  raw   : Word16 := 0
  label : String := ""
  deriving DecidableEq, Repr

/-- The output ports that carry a number (R71), and the two bytes a conversion read returned. `frame` is not
among them: that a line's operand cannot name it, R92 leaving that open, is this model's choice. Log 25. -/
inductive PortName where
  | os | mux | pga | mode | dr | cmode | cpol | clat | cque
  | msb | lsb | raw | fsrMv | lsbPv | voltsPv | rdlen
  | high | low
  deriving DecidableEq, Repr

/-- An operand of an assembler line: an integer literal, or `rN.port` (R92). -/
inductive Operand where
  | lit (v : Int)
  | port (r : Nat) (p : PortName)
  deriving DecidableEq, Repr

/-- An assembler line without its result name (R92), the pseudo-instruction ENCSS (R93), and a
request that drives only `op`, written `<op 0x9>` in 95_test_vectors.md program P4. -/
inductive Line where
  | enc (os mux pga mode dr cmode cpol clat cque : Operand)
  | decf (msb lsb : Operand)
  | decr (high low : Operand)
  | gainlut (gain : Operand)
  | scale (raw gain : Operand)
  | chsel (label : String)
  | cfgframe (msb lsb : Operand)
  | convframe
  | encss (mux pga dr : Operand)
  | bareOp (op : BitVec 4)
  deriving DecidableEq, Repr

/-- The bytes of a bus transfer: written out, or the `frame` port of result `rN` (R161, R204). -/
inductive FrameArg where
  | lit (bytes : List Byte)
  | port (r : Nat)
  deriving DecidableEq, Repr

end Sys2Proof
end

