-- ==== Sys2Proof/WellFormed.lean ====
section
/-! DEFINITION. Which instructions are requests at all. Every operand port but one carries only
legal values by its type (30_encoding.md R75); the exception is DECR's byte list (R130). -/

namespace Sys2Proof

/-- DECR is defined only on lists of length exactly 2 (R130, D9). ENC's operands are naturals that
the operation itself checks, so a value too wide is well formed and faults (R110). -/
def Instr.wf : Instr → Bool
  | .enc _ _ _ _ _ _ _ _ _ => true
  | .decf _ _ => true
  | .decr bytes => bytes.length == 2
  | .gainlut _ => true
  | .scale _ _ => true
  | .chsel _ => true
  | .cfgframe _ _ => true
  | .convframe => true

/-- The request fits the hardware's ENC ports, `w` bits each (R7, R71, D4). -/
def Request.fitsPorts (w : Nat) (r : Request) : Bool :=
  [r.os, r.mux, r.pga, r.mode, r.dr, r.cmode, r.cpol, r.clat, r.cque].all (· < 2 ^ w)

end Sys2Proof
end

