-- ==== Sys2Proof/Decode.lean ====
section
/-! DEFINITION. The decoder from the request port to an instruction, the encoder back, and the
host's view of them on an opcode-table word. `op` alone decides which ports are read
(30_encoding.md R91); a reserved `op` is rejected before any operand is read (R73). -/

namespace Sys2Proof

/-- Why what stands on the request port is no operation. -/
inductive Reject where
  /-- `op` is 0x8 to 0xF; the block answers `IllegalOp(op)` (R73). -/
  | illegalOp (op : BitVec 4)
  /-- `op` is DECR and the byte list is not two bytes: not a request (R130, U10). -/
  | decrByteCount (n : Nat)
  deriving DecidableEq, Repr

/-- The operation map of R72, total on every request. -/
def decode (r : Request) : Except Reject Instr :=
  match r.op.toNat with
  | 0x0 => .ok (.enc r.os r.mux r.pga r.mode r.dr r.cmode r.cpol r.clat r.cque)
  | 0x1 => .ok (.decf r.msb r.lsb)
  | 0x2 => if r.bytes.length = 2 then .ok (.decr r.bytes) else .error (.decrByteCount r.bytes.length)
  | 0x3 => .ok (.gainlut r.gain)
  | 0x4 => .ok (.scale r.raw r.gain)
  | 0x5 => .ok (.chsel r.label)
  | 0x6 => .ok (.cfgframe r.msb r.lsb)
  | 0x7 => .ok .convframe
  | _   => .error (.illegalOp r.op)

/-- The request that stands for an instruction: its `op` (R72) and its operand ports (R71), with
every port it does not read at zero. -/
def encode : Instr → Request
  | .enc os mux pga mode dr cmode cpol clat cque =>
    { op := 0x0, os := os, mux := mux, pga := pga, mode := mode, dr := dr,
      cmode := cmode, cpol := cpol, clat := clat, cque := cque }
  | .decf msb lsb => { op := 0x1, msb := msb, lsb := lsb }
  | .decr bytes => { op := 0x2, bytes := bytes }
  | .gainlut gain => { op := 0x3, gain := gain }
  | .scale raw gain => { op := 0x4, raw := raw, gain := gain }
  | .chsel label => { op := 0x5, label := label }
  | .cfgframe msb lsb => { op := 0x6, msb := msb, lsb := lsb }
  | .convframe => { op := 0x7 }

/-- A word of the opcode table as a request: bits 3:0 are `op` (the table's mask is 0xF), every
operand port is zero. A word with a bit above bit 3 is no `op`. -/
def Request.ofTableWord (w : Nat) : Option Request :=
  if w < 16 then some { op := BitVec.ofNat 4 w } else none

/-- What the decoder reads from an opcode-table word of `nbits` bits. -/
def decodeTableWord (_nbits w : Nat) : Option Instr :=
  match Request.ofTableWord w with
  | none => none
  | some r =>
    match decode r with
    | .ok i => some i
    | .error _ => none

end Sys2Proof
end

