-- ==== Sys2Proof/Machine/State.lean ====
section
/-! DEFINITION. The state. The block has none (10_state.md R20, R21); State holds what surrounds
it: the result port, the requester's pending actions and named results, and for each bus address
the device (R24 to R30) and the sequences of its session (70_reset_and_hazards.md R217). -/

namespace Sys2Proof.Machine

/-- Why the machine stops with a fault. The block's own faults are no stops: they are values on the
result port (`BlockFault`). -/
inductive Fault where
  /-- Raised by a line or a transfer that names a port of result `r`, and `r` is a FAULT: "the
  requester stops there" (30_encoding.md R92). Safe. -/
  | requesterStops (r : Nat)
  deriving DecidableEq, Repr

/-- Why the model has no meaning for a step. -/
inductive Refusal where
  /-- An instruction whose arm of `exec` has no meaning yet; raised by no arm of this model. Safe. -/
  | notModelled (mnemonic : String)
  /-- Raised by `step` when no action is pending: there is no request to evaluate. Safe. Log 3. -/
  | noRequest
  /-- Raised by DECR and the decoder on a byte list of `n` bytes, `n` not 2: not a request (R130,
  U10). Safe. -/
  | decrByteCount (n : Nat)
  /-- Raised by a transfer to pointer 0x02 or 0x03, "not covered by this core" (R52, U7). Safe. -/
  | uncoveredRegister (pointer : Byte)
  /-- Raised by a transfer to pointer 0x04 to 0xFF, not an address (R52, U8). Safe. -/
  | notAnAddress (pointer : Byte)
  /-- Raised by a write with data to the read-only Conversion register (R28, U9). Safe. -/
  | writeToConversion
  /-- Raised by a transfer whose data is not exactly 2 bytes, or that has no pointer byte, or writes
  data before a read (R57, U11). Safe. -/
  | transferLength
  /-- Raised by a reference to a result `r` the requester has not named (R92). Safe. Log 24. -/
  | noSuchResult (r : Nat)
  /-- Raised by a reference to a port that result `r` does not have (R92). Safe. Log 24. -/
  | noSuchPort (r : Nat)
  /-- Raised by an operand value that its port cannot carry (R71, R92). Safe. Log 24. -/
  | operandDoesNotFit
  deriving DecidableEq, Repr

/-- The nine field values DECF returns, each at its field's width (R71, R115). -/
structure Configuration where
  os    : BitVec 1
  mux   : BitVec 3
  pga   : BitVec 3
  mode  : BitVec 1
  dr    : BitVec 3
  cmode : BitVec 1
  cpol  : BitVec 1
  clat  : BitVec 1
  cque  : BitVec 2
  deriving DecidableEq, Repr

/-- The output ports of each operation (R71), and the two outcomes of a bus transfer, which the
requester names like results but which never stand on the block's result port. -/
inductive Outputs where
  | enc (msb lsb : Byte)
  | decf (c : Configuration)
  | decr (raw : Word16)
  | gainlut (fsrMv : BitVec 16) (lsbPv : BitVec 32)
  | scale (voltsPv : BitVec 64)
  | chsel (mux : BitVec 3)
  | cfgframe (frame : List Byte)
  | convframe (frame : List Byte) (rdlen : Byte)
  /-- A bus write completed (20_memory.md R51). -/
  | busWritten
  /-- A bus read returned two bytes, in bus order (R51, R54, R57). -/
  | busRead (high low : Byte)
  deriving DecidableEq, Repr

/-- The closed set of faults of 60_exceptions.md R170. The block raises the first four; the last two
are the requester's reports (R176). -/
inductive BlockFault where
  | invalidFieldValue (f : Field)
  | unknownChannel
  | unsupportedGainCode (gain : BitVec 3)
  | illegalOp (op : BitVec 4)
  | transportError
  | cancelled
  deriving DecidableEq, Repr

/-- The result of a request: exactly one of OK(outputs) and FAULT(code, info) (R12, R74). -/
inductive Result where
  | ok (o : Outputs)
  | fault (f : BlockFault)
  deriving DecidableEq, Repr

/-- A conversion in flight (R30): a read at or after tick `readyAt` finds it settled (R210); the device
is performing it at least until `busyUntil` (R80, R84; log 9); `sample` is its result (a draw, U4);
`determinate` says that the register then holds that sample, and not the open word `other` (R211; log 11). -/
structure Flight where
  readyAt     : Nat
  busyUntil   : Nat
  sample      : Word16
  other       : Word16
  determinate : Bool
  deriving DecidableEq, Repr

/-- What the Conversion register holds while no conversion is in flight. -/
inductive Contents where
  /-- Still what power-up left: an open word, the same at every read (R205, R60); unless the device converts
  continuously, which is open until a write has made its Configuration contents known (R205). Log 8. -/
  | powerUp
  /-- The word of the field `conversion` (R28, R60). -/
  | held
  /-- A conversion may complete between any two reads, so every read is a free draw of its own: continuous
  mode, and unknown Configuration contents (N26, R205). Log 12, log 13. -/
  | running
  deriving DecidableEq, Repr

/-- One device on the bus (10_state.md section 2). -/
structure Device where
  /-- Configuration register, pointer 0x01 (R24). -/
  config             : Word16
  /-- false: the contents of `config` are unknown, a draw (R205, U3). -/
  configKnown        : Bool
  /-- Conversion register, pointer 0x00 (R28). -/
  conversion         : Word16
  /-- What the Conversion register holds while none is in flight (R60, R205). -/
  conversionContents : Contents
  /-- Low threshold register, pointer 0x02; no transfer of this model reaches it (R29). -/
  loThreshold        : Word16
  /-- High threshold register, pointer 0x03; no transfer of this model reaches it (R29). -/
  hiThreshold        : Word16
  /-- The conversion in flight, if there is one (R30). -/
  flight             : Option Flight
  deriving DecidableEq, Repr

/-- Where a conversion sequence stands (R217); Idle is that there is none. -/
inductive Phase where
  | configWritten | waiting | sampleRead
  deriving DecidableEq, Repr

/-- A conversion sequence (R204): its number, if its actions carry one; where it stands; whether the
conversion read that collects its result has returned, which is before DECR takes it to SampleRead (R211,
R217); and whether R211 has been violated while it was open. -/
structure Sequence where
  seq       : Option Nat
  phase     : Phase
  collected : Bool
  violated  : Bool
  deriving DecidableEq, Repr

/-- A DeviceSession: the device at one bus address, and the requester's sequences there, in the order in
which they began; a requester that keeps R211 has one open at a time. -/
structure Session where
  device    : Device
  sequences : List Sequence
  deriving DecidableEq, Repr

/-- What the requester does next. `ok` of a transfer is the transport's answer (R51, R213), an input
from outside the machine; `dst` is the result name `rN`, if the line has one (R92). -/
inductive Act where
  /-- Present a request to the block, its ports already driven. -/
  | request (dst : Option Nat) (r : Request)
  /-- Evaluate an assembler line (R92). -/
  | line (dst : Option Nat) (l : Line)
  /-- `write(bytes)` (R51). -/
  | write (dst : Option Nat) (bytes : FrameArg) (ok : Bool)
  /-- `writeThenRead(bytes, len)`, one indivisible transaction (R51, R59). -/
  | writeThenRead (dst : Option Nat) (bytes : FrameArg) (len : Operand) (ok : Bool)
  /-- Let `ticks` pass (R210). -/
  | wait (ticks : Nat)
  /-- Abandon the sequence during the settle wait, reported as `Cancelled` (R214). -/
  | cancel (dst : Option Nat)
  deriving DecidableEq, Repr

/-- An action, the 7-bit bus address of the session it belongs to (R53), and the number of the
conversion sequence of that session it is part of (R204, R211), if it is part of one. Log 31. -/
structure Action where
  addr : BitVec 7
  seq  : Option Nat := none
  act  : Act
  deriving DecidableEq, Repr

/-- The whole state: plain data, no register of the block among it. -/
structure State where
  /-- What the requester will do, the next action first. -/
  pending  : List Action
  /-- The result port after the last request (R74); none before the first. Log 4. -/
  result   : Option Result
  /-- The requester's named results, by number, strictly rising. -/
  results  : List (Nat × Result)
  /-- The sessions by bus address, strictly rising; an address not listed is `Session.powerUp`. -/
  sessions : List (Nat × Session)
  /-- Elapsed time, in ticks of 1/13072000 second. Log 10. -/
  now      : Nat
  /-- How many free values have been drawn: the model's own counter. Log 8. -/
  draws    : Nat
  deriving DecidableEq, Repr

/-- A device after power-up: the register values of R27, R28 and R29, none of which may be relied on
(R202, R205). Log 7. -/
def Device.powerUp : Device :=
  { config := 0x8583, configKnown := false, conversion := 0x0000, conversionContents := .powerUp,
    loThreshold := 0x8000, hiThreshold := 0x7FFF, flight := none }

/-- A session on which no action has been performed. -/
def Session.powerUp : Session := { device := Device.powerUp, sequences := [] }

/-- The block has no reset (R200, R201); this is the system before the first action. -/
def State.reset : State :=
  { pending := [], result := none, results := [], sessions := [], now := 0, draws := 0 }

end Sys2Proof.Machine
end

