-- ==== Sys2Proof/Machine/Layout.lean ====
section
/-! DEFINITION. The constant tables of the Configuration word (10_state.md R22, R24; 30_encoding.md
R76 to R79): where each field stands, the packing of nine values into two bytes, the unpacking, and
the byte order of a 16-bit register (20_memory.md R54, R55). -/

namespace Sys2Proof.Machine

/-- Field index 0 to 8 (R24, R172). -/
def Field.index : Field → Nat
  | .os => 0 | .mux => 1 | .pga => 2 | .mode => 3 | .dr => 4
  | .cmode => 5 | .cpol => 6 | .clat => 7 | .cque => 8

/-- Width in bits (R24, R110). -/
def Field.width : Field → Nat
  | .os => 1 | .mux => 3 | .pga => 3 | .mode => 1 | .dr => 3
  | .cmode => 1 | .cpol => 1 | .clat => 1 | .cque => 2

/-- Least significant bit of the field in the Configuration word (R24, D5). Log 5. -/
def Field.low : Field → Nat
  | .os => 15 | .mux => 12 | .pga => 9 | .mode => 8 | .dr => 5
  | .cmode => 4 | .cpol => 3 | .clat => 2 | .cque => 0

/-- Bit `i` of a Configuration word belongs to the field (R24). -/
def Field.covers (f : Field) (i : Nat) : Bool :=
  decide (Field.low f ≤ i) && decide (i < Field.low f + Field.width f)

/-- A 16-bit word from its MSB byte and LSB byte: `high ++ low` (R8, R54, R55, R77). -/
def word16 (high low : Byte) : Word16 := high ++ low

/-- `w[15:8]`, the byte that travels first (R8, R54, R55). -/
def msbOf (w : Word16) : Byte := w.extractLsb' 8 8

/-- `w[7:0]`, the byte that travels second (R8, R54, R55). -/
def lsbOf (w : Word16) : Byte := w.extractLsb' 0 8

/-- The MSB byte of R76: `(OS << 7) | (MUX << 4) | (PGA << 1) | MODE`. -/
def packMsb (os mux pga mode : Nat) : Byte :=
  BitVec.ofNat 8 (os <<< 7 ||| mux <<< 4 ||| pga <<< 1 ||| mode)

/-- The LSB byte of R76: `(DR << 5) | (CMODE << 4) | (CPOL << 3) | (CLAT << 2) | CQUE`. -/
def packLsb (dr cmode cpol clat cque : Nat) : Byte :=
  BitVec.ofNat 8 (dr <<< 5 ||| cmode <<< 4 ||| cpol <<< 3 ||| clat <<< 2 ||| cque)

/-- The nine fields of a Configuration word's two bytes (R115). -/
def unpack (msb lsb : Byte) : Configuration :=
  { os    := msb.extractLsb' 7 1
    mux   := msb.extractLsb' 4 3
    pga   := msb.extractLsb' 1 3
    mode  := msb.extractLsb' 0 1
    dr    := lsb.extractLsb' 5 3
    cmode := lsb.extractLsb' 4 1
    cpol  := lsb.extractLsb' 3 1
    clat  := lsb.extractLsb' 2 1
    cque  := lsb.extractLsb' 0 2 }

/-- A Configuration word with another OS bit (bit 15, R24). -/
def withOs (os : BitVec 1) (w : Word16) : Word16 := os ++ w.extractLsb' 0 15

/-- The register pointers the block emits (R22, R52). -/
def conversionPointer : Byte := 0x00

/-- See `conversionPointer`. -/
def configPointer : Byte := 0x01

end Sys2Proof.Machine
end

