-- ==== Sys2Proof/Machine/Flags.lean ====
section
/-! DEFINITION. The block has no flags (10_state.md R21). What an operation reports beside its
outputs is the tag, code and info of its own result (30_encoding.md R74; 60_exceptions.md R170);
they are computed here. -/

namespace Sys2Proof.Machine

/-- Fault codes 1 to 6 (R170). -/
def BlockFault.code : BlockFault → BitVec 4
  | .invalidFieldValue _ => 1
  | .unknownChannel => 2
  | .unsupportedGainCode _ => 3
  | .illegalOp _ => 4
  | .transportError => 5
  | .cancelled => 6

/-- The fault's detail (R170, R172); codes 5 and 6 carry none, and 0 stands for that. -/
def BlockFault.info : BlockFault → Nat
  | .invalidFieldValue f => Field.index f
  | .unknownChannel => 0
  | .unsupportedGainCode gain => gain.toNat
  | .illegalOp op => op.toNat
  | .transportError => 0
  | .cancelled => 0

/-- `tag`: 0 is OK, 1 is FAULT (R74). -/
def Result.tag : Result → BitVec 1
  | .ok _ => 0
  | .fault _ => 1

/-- `code`: 0 on OK (R74). -/
def Result.code : Result → BitVec 4
  | .ok _ => 0
  | .fault f => BlockFault.code f

/-- `info`: 0 on OK (R74). -/
def Result.info : Result → Nat
  | .ok _ => 0
  | .fault f => BlockFault.info f

/-- The output ports: on FAULT they carry no value (R74, R171). -/
def Result.outputs : Result → Option Outputs
  | .ok o => some o
  | .fault _ => none

end Sys2Proof.Machine
end

