-- ==== Sys2Proof/Machine/Ops.lean ====
section
/-! DEFINITION. The shared operations over State: keyed lists in canonical form, sessions by bus
address, the result port (answering a request, raising a fault), naming a result, drawing a free
value. -/

namespace Sys2Proof.Machine

/-- The three outcomes of a step over this machine's types. -/
abbrev Out := Host.Outcome State Fault Refusal

/-- The entry under key `k`. -/
def Assoc.get {α : Type} (k : Nat) : List (Nat × α) → Option α
  | [] => none
  | (j, v) :: t => if j = k then some v else Assoc.get k t

/-- Set the entry under key `k`, keeping the keys strictly rising. -/
def Assoc.put {α : Type} (k : Nat) (v : α) : List (Nat × α) → List (Nat × α)
  | [] => [(k, v)]
  | (j, w) :: t =>
    if k < j then (k, v) :: (j, w) :: t
    else if k = j then (k, v) :: t
    else (j, w) :: Assoc.put k v t

/-- Remove every entry under key `k`. -/
def Assoc.erase {α : Type} (k : Nat) : List (Nat × α) → List (Nat × α)
  | [] => []
  | (j, w) :: t => if j = k then Assoc.erase k t else (j, w) :: Assoc.erase k t

/-- The keys strictly rise. -/
def Assoc.rising {α : Type} : List (Nat × α) → Bool
  | [] => true
  | (j, _) :: t => t.all (fun e => decide (j < e.1)) && Assoc.rising t

/-- The session at a bus address (R53); one nothing has touched is `Session.powerUp`. -/
def State.session (s : State) (a : BitVec 7) : Session :=
  (Assoc.get a.toNat s.sessions).getD Session.powerUp

/-- Set the session at a bus address; the list stays canonical. -/
def State.setSession (a : BitVec 7) (x : Session) (s : State) : State :=
  { s with sessions :=
      if x = Session.powerUp then Assoc.erase a.toNat s.sessions
      else Assoc.put a.toNat x s.sessions }

/-- Move the sequences of a session; its device is not touched (R217). -/
def State.setSequences (a : BitVec 7) (l : List Sequence) (s : State) : State :=
  s.setSession a { device := (s.session a).device, sequences := l }

/-- The result port carries `r` (R74); nothing else changes (R12, R20). -/
def State.setResult (r : Result) (s : State) : State := { s with result := some r }

/-- The requester names `r` as `rN`, if the line has a name (R92). Without a name nothing keeps `r` but
the result port, which a transfer's or a cancellation's report never stands on: where the requester
keeps such a report is open in the spec (R176), and that it is kept by name only is this model's choice.
Log 29. -/
def State.record (dst : Option Nat) (r : Result) (s : State) : State :=
  match dst with
  | none => s
  | some n => { s with results := Assoc.put n r s.results }

/-- What the requester will do from now on (R21). -/
def State.withPending (rest : List Action) (s : State) : State := { s with pending := rest }

/-- The list without the actions of sequence `q` of the session at `a`; an action without a number takes
nothing off the list, which is this model's choice. Log 31. -/
def dropSequence (a : BitVec 7) (q : Option Nat) (acts : List Action) : List Action :=
  match q with
  | none => acts
  | some k => acts.filter fun x => !(decide (x.addr = a) && decide (x.seq = some k))

/-- The requester issues nothing more of sequence `q` of the session at `a` (R213, R217). Log 31. -/
def State.endSequence (a : BitVec 7) (q : Option Nat) (s : State) : State :=
  s.withPending (dropSequence a q s.pending)

/-- The requester has checked the outcome `r` of an action of sequence `q` (R213): it is named, and a
FAULT ends the sequence (R217). Log 31. -/
def State.report (a : BitVec 7) (q dst : Option Nat) (r : Result) (s : State) : State :=
  match r with
  | .ok _ => s.record dst r
  | .fault _ => (s.endSequence a q).record dst r

/-- `ticks` pass (R210). Log 10. -/
def State.elapse (ticks : Nat) (s : State) : State := { s with now := s.now + ticks }

/-- One more free value has been drawn. Log 8. -/
def State.drawn (s : State) : State := { s with draws := s.draws + 1 }

/-- `result <- o` (R11): OK with the operation's outputs. -/
def answer (o : Outputs) (s : State) : Out := .next (s.setResult (.ok o))

/-- `raise f` (R11, R170, R171, R177): the fault is placed on the result port and the operation ends.
No state is saved, no mode changes, control goes nowhere; there is no return from it (R178). -/
def raise (f : BlockFault) (s : State) : Out := .next (s.setResult (.fault f))

end Sys2Proof.Machine
end

