-- ==== Sys2Proof/Machine/Operands.lean ====
section
/-! DEFINITION. The operand forms. At the block: ENC's range check (40_config_codec.md R110 to
R112); every other operand is legal by its type (30_encoding.md R75). At the requester: the operands
of an assembler line (R92), which are literals or output ports of named results, and the expansion
of the pseudo-instruction (R93). -/

namespace Sys2Proof.Machine

/-- ENC's operands beside their fields, in field index order (R110). -/
def fieldOperands (os mux pga mode dr cmode cpol clat cque : Nat) : List (Field × Nat) :=
  [(.os, os), (.mux, mux), (.pga, pga), (.mode, mode), (.dr, dr),
   (.cmode, cmode), (.cpol, cpol), (.clat, clat), (.cque, cque)]

/-- The first field, in index order, whose value is at least `2 ^ width` (R110, R111, R112). -/
def firstOutOfRange : List (Field × Nat) → Option Field
  | [] => none
  | (f, v) :: rest => if 2 ^ Field.width f ≤ v then some f else firstOutOfRange rest

/-- The number an output port carries (R71). -/
def Outputs.port : Outputs → PortName → Option Int
  | .enc msb _, .msb => some msb.toNat
  | .enc _ lsb, .lsb => some lsb.toNat
  | .decf c, .os => some c.os.toNat
  | .decf c, .mux => some c.mux.toNat
  | .decf c, .pga => some c.pga.toNat
  | .decf c, .mode => some c.mode.toNat
  | .decf c, .dr => some c.dr.toNat
  | .decf c, .cmode => some c.cmode.toNat
  | .decf c, .cpol => some c.cpol.toNat
  | .decf c, .clat => some c.clat.toNat
  | .decf c, .cque => some c.cque.toNat
  | .decr raw, .raw => some raw.toInt
  | .gainlut fsrMv _, .fsrMv => some fsrMv.toNat
  | .gainlut _ lsbPv, .lsbPv => some lsbPv.toNat
  | .scale voltsPv, .voltsPv => some voltsPv.toInt
  | .chsel mux, .mux => some mux.toNat
  | .convframe _ rdlen, .rdlen => some rdlen.toNat
  | .busRead high _, .high => some high.toNat
  | .busRead _ low, .low => some low.toNat
  | _, _ => none

/-- The frame an output port carries (R71, R78). -/
def Outputs.framePort : Outputs → Option (List Byte)
  | .cfgframe frame => some frame
  | .convframe frame _ => some frame
  | _ => none

/-- Why a line or a transfer is no request. -/
inductive Stop where
  | fault (f : Fault)
  | refuse (r : Refusal)
  deriving DecidableEq, Repr

/-- The machine stops for that reason. -/
def Stop.out : Stop → Out
  | .fault f => .fault f
  | .refuse r => .refused r

/-- The outputs of result `rN`: naming a FAULT result stops the requester (R92). -/
def namedOutputs (results : List (Nat × Result)) (n : Nat) : Except Stop Outputs :=
  match Assoc.get n results with
  | none => .error (.refuse (.noSuchResult n))
  | some (.fault _) => .error (.fault (.requesterStops n))
  | some (.ok o) => .ok o

/-- The value of an operand (R92). -/
def Operand.value (results : List (Nat × Result)) : Operand → Except Stop Int
  | .lit v => .ok v
  | .port n p =>
    match namedOutputs results n with
    | .error e => .error e
    | .ok o =>
      match Outputs.port o p with
      | none => .error (.refuse (.noSuchPort n))
      | some v => .ok v

/-- The bytes of a transfer (R161, R204). -/
def FrameArg.value (results : List (Nat × Result)) : FrameArg → Except Stop (List Byte)
  | .lit bytes => .ok bytes
  | .port n =>
    match namedOutputs results n with
    | .error e => .error e
    | .ok o =>
      match Outputs.framePort o with
      | none => .error (.refuse (.noSuchPort n))
      | some bytes => .ok bytes

/-- A value an unbounded unsigned port carries (R71, D4). -/
def natPort (v : Int) : Except Stop Nat :=
  if 0 ≤ v then .ok v.toNat else .error (.refuse .operandDoesNotFit)

/-- A value a `w`-bit unsigned port carries (R71, R75): never truncated. -/
def bitsPort (w : Nat) (v : Int) : Except Stop (BitVec w) :=
  if 0 ≤ v ∧ v < 2 ^ w then .ok (BitVec.ofInt w v) else .error (.refuse .operandDoesNotFit)

/-- A value the `s16` port carries (R71, R9). -/
def s16Port (v : Int) : Except Stop Word16 :=
  if -32768 ≤ v ∧ v ≤ 32767 then .ok (BitVec.ofInt 16 v) else .error (.refuse .operandDoesNotFit)

/-- ENCSS mux, pga, dr is ENC 1, mux, pga, 1, dr, 0, 0, 0, 3 (R93, R203); no other line changes. -/
def Line.expand : Line → Line
  | .encss mux pga dr =>
    .enc (.lit 1) mux pga (.lit 1) dr (.lit 0) (.lit 0) (.lit 0) (.lit 3)
  | l => l

/-- An operand at an unbounded port. -/
def Operand.nat (results : List (Nat × Result)) (o : Operand) : Except Stop Nat :=
  Operand.value results o >>= natPort

/-- An operand at a `w`-bit port. -/
def Operand.bits (w : Nat) (results : List (Nat × Result)) (o : Operand) : Except Stop (BitVec w) :=
  Operand.value results o >>= bitsPort w

/-- The request a line stands for, its operands copied in from left to right (R92, R21). -/
def Line.toRequest (results : List (Nat × Result)) (l : Line) : Except Stop Request :=
  match Line.expand l with
  | .enc os mux pga mode dr cmode cpol clat cque => do
    let os ← Operand.nat results os
    let mux ← Operand.nat results mux
    let pga ← Operand.nat results pga
    let mode ← Operand.nat results mode
    let dr ← Operand.nat results dr
    let cmode ← Operand.nat results cmode
    let cpol ← Operand.nat results cpol
    let clat ← Operand.nat results clat
    let cque ← Operand.nat results cque
    pure (encode (.enc os mux pga mode dr cmode cpol clat cque))
  | .decf msb lsb => do
    let msb ← Operand.bits 8 results msb
    let lsb ← Operand.bits 8 results lsb
    pure (encode (.decf msb lsb))
  | .decr high low => do
    let high ← Operand.bits 8 results high
    let low ← Operand.bits 8 results low
    pure (encode (.decr [high, low]))
  | .gainlut gain => do
    let gain ← Operand.bits 3 results gain
    pure (encode (.gainlut gain))
  | .scale raw gain => do
    let raw ← Operand.value results raw >>= s16Port
    let gain ← Operand.bits 3 results gain
    pure (encode (.scale raw gain))
  | .chsel label => .ok (encode (.chsel label))
  | .cfgframe msb lsb => do
    let msb ← Operand.bits 8 results msb
    let lsb ← Operand.bits 8 results lsb
    pure (encode (.cfgframe msb lsb))
  | .convframe => .ok (encode .convframe)
  | .encss _ _ _ => .error (.refuse .operandDoesNotFit)
  | .bareOp op => .ok { op := op }

end Sys2Proof.Machine
end

