-- ==== Sys2Proof/Machine/ConfigCodec.lean ====
section
/-! DEFINITION. ENC, DECF and CHSEL (40_config_codec.md). -/

namespace Sys2Proof.Machine

/-- ENC: check the nine operands in index order, then pack (R110, R111, R112, R76). -/
def execEnc (os mux pga mode dr cmode cpol clat cque : Nat) (s : State) : Out :=
  match firstOutOfRange (fieldOperands os mux pga mode dr cmode cpol clat cque) with
  | some f => raise (.invalidFieldValue f) s
  | none => answer (.enc (packMsb os mux pga mode) (packLsb dr cmode cpol clat cque)) s

/-- DECF: the nine fields of the word, OS uninterpreted (R115, D24). -/
def execDecf (msb lsb : Byte) (s : State) : Out :=
  answer (.decf (unpack msb lsb)) s

/-- The eight labels and their MUX codes (R89, R120). Log 6, log 19. -/
def channelTable : List (String × BitVec 3) :=
  [("AIN0-AIN1", 0), ("AIN0-AIN3", 1), ("AIN1-AIN3", 2), ("AIN2-AIN3", 3),
   ("AIN0", 4), ("AIN1", 5), ("AIN2", 6), ("AIN3", 7)]

/-- Exact, case-sensitive equality with a label of the table (R120, D10). -/
def channelCode (label : String) : Option (BitVec 3) := channelTable.lookup label

/-- CHSEL: a label that is not in the table never gets a default code (R120, R173). -/
def execChsel (label : String) (s : State) : Out :=
  match channelCode label with
  | some mux => answer (.chsel mux) s
  | none => raise .unknownChannel s

end Sys2Proof.Machine
end

