-- ==== Sys2Proof/Machine/Framing.lean ====
section
/-! DEFINITION. CFGFRAME and CONVFRAME (43_register_framing.md). They form bytes and send nothing
(20_memory.md R51). -/

namespace Sys2Proof.Machine

/-- `[0x01, msb, lsb]`, in bus order (R160, R78, R55). -/
def cfgFrame (msb lsb : Byte) : List Byte := [configPointer, msb, lsb]

/-- `[0x00]` (R161, R78). -/
def convFrame : List Byte := [conversionPointer]

/-- The read length of a conversion read (R161, R57). -/
def convReadLength : Byte := 2

/-- CFGFRAME: the field contents are not checked (R160). -/
def execCfgframe (msb lsb : Byte) (s : State) : Out :=
  answer (.cfgframe (cfgFrame msb lsb)) s

/-- CONVFRAME: the same constant for every request (R161). -/
def execConvframe (s : State) : Out :=
  answer (.convframe convFrame convReadLength) s

end Sys2Proof.Machine
end

