-- ==== Sys2Proof/Machine/GainScaler.lean ====
section
/-! DEFINITION. The GainTable, GAINLUT and SCALE (42_gain_scaler.md). -/

namespace Sys2Proof.Machine

/-- One entry of the GainTable: full-scale range in millivolts, scale factor in picovolts per count. -/
structure GainEntry where
  fsrMv : Nat
  lsbPv : Nat
  deriving DecidableEq, Repr

/-- The six entries, PGA codes 0 to 5 in order (R140). Log 6, log 17. -/
def gainTable : List GainEntry :=
  [{ fsrMv := 6144, lsbPv := 187500000 }, { fsrMv := 4096, lsbPv := 125000000 },
   { fsrMv := 2048, lsbPv := 62500000 },  { fsrMv := 1024, lsbPv := 31250000 },
   { fsrMv := 512,  lsbPv := 15625000 },  { fsrMv := 256,  lsbPv := 7812500 }]

/-- The entry of a PGA code; codes 6 and 7 have none (R141, D7). Log 18. -/
def gainEntry (gain : BitVec 3) : Option GainEntry := gainTable[gain.toNat]?

/-- GAINLUT (R141). -/
def execGainlut (gain : BitVec 3) (s : State) : Out :=
  match gainEntry gain with
  | none => raise (.unsupportedGainCode gain) s
  | some e => answer (.gainlut (BitVec.ofNat 16 e.fsrMv) (BitVec.ofNat 32 e.lsbPv)) s

/-- The exact product, in picovolts (R150). -/
def voltsPv (raw : Word16) (e : GainEntry) : Int := raw.toInt * e.lsbPv

/-- SCALE: the gain is checked first, whatever `raw` is (R150, R174); the product fits `s64` (R151). -/
def execScale (raw : Word16) (gain : BitVec 3) (s : State) : Out :=
  match gainEntry gain with
  | none => raise (.unsupportedGainCode gain) s
  | some e => answer (.scale (BitVec.ofInt 64 (voltsPv raw e))) s

/-- The scale factor in volts per count, as an exact rational (R140). -/
def GainEntry.voltsPerCount (e : GainEntry) : Rat := (e.fsrMv : Rat) / 1000 / 32768

/-- A CalibratedReading in volts: picovolts over 10^12, as an exact rational (R152). -/
def readingVolts (pv : BitVec 64) : Rat := (pv.toInt : Rat) / 1000000000000

end Sys2Proof.Machine
end

