-- ==== Sys2Proof/Machine/ResultCodec.lean ====
section
/-! DEFINITION. DECR (41_result_codec.md). -/

namespace Sys2Proof.Machine

/-- DECR: high byte first, reinterpreted as `s16` (R130, R77). A list of another length is not a DECR
request and is refused at the model's boundary (R130, D9, U10). -/
def execDecr (bytes : List Byte) (s : State) : Out :=
  match bytes with
  | [high, low] => answer (.decr (word16 high low)) s
  | _ => .refused (.decrByteCount bytes.length)

/-- The inverse of DECR on a RawSample (R131): `high = (raw mod 65536)[15:8]`, `low` the rest. -/
def bytesOfRaw (raw : Int) : Byte × Byte :=
  (msbOf (BitVec.ofInt 16 raw), lsbOf (BitVec.ofInt 16 raw))

end Sys2Proof.Machine
end

