-- ==== Sys2Proof/Machine/Dispatch.lean ====
section
/-! DEFINITION. One arm for each operation (30_encoding.md R72). -/

namespace Sys2Proof.Machine

def exec (i : Instr) (s : State) : Host.Outcome State Fault Refusal :=
  match i with
  | .enc os mux pga mode dr cmode cpol clat cque => Sys2Proof.Machine.execEnc os mux pga mode dr cmode cpol clat cque s
  | .decf msb lsb => Sys2Proof.Machine.execDecf msb lsb s
  | .decr bytes => Sys2Proof.Machine.execDecr bytes s
  | .gainlut gain => Sys2Proof.Machine.execGainlut gain s
  | .scale raw gain => Sys2Proof.Machine.execScale raw gain s
  | .chsel label => Sys2Proof.Machine.execChsel label s
  | .cfgframe msb lsb => Sys2Proof.Machine.execCfgframe msb lsb s
  | .convframe => Sys2Proof.Machine.execConvframe s

end Sys2Proof.Machine
end

