-- ==== Sys2Proof/Machine/FieldCodes.lean ====
section
/-! DEFINITION. What each field's codes mean (30_encoding.md R80 to R88; log 6), and the conversion
time of a data rate (R84) in the ticks the settle rule counts (70_reset_and_hazards.md R210). -/

namespace Sys2Proof.Machine

/-- An analog input pin. -/
inductive Pin where
  | ain0 | ain1 | ain2 | ain3
  deriving DecidableEq, Repr

/-- A channel-pair selection: the positive pin, and the negative pin or GND (R81). -/
structure MuxSelection where
  positive : Pin
  negative : Option Pin
  deriving DecidableEq, Repr

/-- Continuous or single-shot (R83). -/
inductive OperatingMode where
  | continuous | singleShot
  deriving DecidableEq, Repr

/-- Traditional or window comparator (R85). -/
inductive ComparatorMode where
  | traditional | window
  deriving DecidableEq, Repr

/-- Polarity of ALERT/RDY (R86). -/
inductive ComparatorPolarity where
  | activeLow | activeHigh
  deriving DecidableEq, Repr

/-- Latching or non-latching (R87). -/
inductive ComparatorLatch where
  | nonLatching | latching
  deriving DecidableEq, Repr

/-- Assert after 1, 2 or 4 conversions, or disabled (R88). -/
inductive ComparatorQueue where
  | afterOne | afterTwo | afterFour | disabled
  deriving DecidableEq, Repr

/-- What a write of the OS bit asks for (R80). -/
inductive OsWrite where
  | noEffect | startConversion
  deriving DecidableEq, Repr

/-- What the OS bit says on a read (R80). -/
inductive OsRead where
  | converting | notConverting
  deriving DecidableEq, Repr

/-- R80, write direction. -/
def osWrite (c : BitVec 1) : OsWrite := if c = 1 then .startConversion else .noEffect

/-- R80, read direction. -/
def osRead (c : BitVec 1) : OsRead := if c = 1 then .notConverting else .converting

/-- R81. -/
def muxSelection (c : BitVec 3) : MuxSelection :=
  match c.toNat with
  | 0 => ⟨.ain0, some .ain1⟩
  | 1 => ⟨.ain0, some .ain3⟩
  | 2 => ⟨.ain1, some .ain3⟩
  | 3 => ⟨.ain2, some .ain3⟩
  | 4 => ⟨.ain0, none⟩
  | 5 => ⟨.ain1, none⟩
  | 6 => ⟨.ain2, none⟩
  | _ => ⟨.ain3, none⟩

/-- R82: the full-scale range in millivolts; codes 6 and 7 have no GainTable entry. -/
def fullScaleMv (c : BitVec 3) : Option Nat :=
  match c.toNat with
  | 0 => some 6144
  | 1 => some 4096
  | 2 => some 2048
  | 3 => some 1024
  | 4 => some 512
  | 5 => some 256
  | _ => none

/-- R83. -/
def operatingMode (c : BitVec 1) : OperatingMode := if c = 1 then .singleShot else .continuous

/-- R84: samples per second. -/
def samplesPerSecond (c : BitVec 3) : Nat :=
  match c.toNat with
  | 0 => 8
  | 1 => 16
  | 2 => 32
  | 3 => 64
  | 4 => 128
  | 5 => 250
  | 6 => 475
  | _ => 860

/-- R85. -/
def comparatorMode (c : BitVec 1) : ComparatorMode := if c = 1 then .window else .traditional

/-- R86. -/
def comparatorPolarity (c : BitVec 1) : ComparatorPolarity := if c = 1 then .activeHigh else .activeLow

/-- R87. -/
def comparatorLatch (c : BitVec 1) : ComparatorLatch := if c = 1 then .latching else .nonLatching

/-- R88. -/
def comparatorQueue (c : BitVec 2) : ComparatorQueue :=
  match c.toNat with
  | 0 => .afterOne
  | 1 => .afterTwo
  | 2 => .afterFour
  | _ => .disabled

/-- Ticks in a second: the least number every data rate of R84 divides, so that every nominal
conversion time is a whole number of ticks. Log 10. -/
def ticksPerSecond : Nat := 13072000

/-- The nominal conversion time `1/DR` (R84), in ticks; exact for every code. -/
def conversionTicks (dr : BitVec 3) : Nat := ticksPerSecond / samplesPerSecond dr

/-- The longest nominal conversion time, at 8 samples per second (R84, R210). -/
def slowestConversionTicks : Nat := conversionTicks 0

end Sys2Proof.Machine
end

