-- ==== Sys2Proof/Machine/Sequences.lean ====
section
/-! DEFINITION. The conversion sequences of a session (70_reset_and_hazards.md R204, R211, R217): how a
Configuration write begins one, what violates it, which read collects it, and how it ends. The list is in
the order in which the sequences began. Log 11, log 21, log 31. -/

namespace Sys2Proof.Machine

/-- The sequence is between its Configuration write and the conversion read that collects its result
(R211). -/
def Sequence.isOpen (e : Sequence) : Bool := !e.collected

/-- The open sequences of a session. -/
def Session.opened (x : Session) : List Sequence := x.sequences.filter Sequence.isOpen

/-- Where the session's sequence `q` stands, and of several where the oldest does; none is Idle (R217). Log 21. -/
def Session.phase (q : Option Nat) (x : Session) : Option Phase :=
  (x.sequences.find? fun e => decide (e.seq = q)).map Sequence.phase

/-- No sequence is open. -/
def Sequences.allClosed (l : List Sequence) : Bool := l.all fun e => !e.isOpen

/-- A transfer came that R211 forbids while a sequence is open. -/
def Sequence.violate (e : Sequence) : Sequence :=
  { e with violated := e.violated || e.isOpen }

/-- Every open sequence is violated. -/
def Sequences.violate (l : List Sequence) : List Sequence := l.map Sequence.violate

/-- Without the sequences `q` whose result has been collected, however many there are. Log 21. -/
def Sequences.dropCollected (q : Option Nat) (l : List Sequence) : List Sequence :=
  l.filter fun e => !(decide (e.seq = q) && e.collected)

/-- A Configuration write of sequence `q` that makes the device convert: it begins a sequence, itself
violated unless `clean`, and violates every open one (R211). -/
def Sequences.begin (q : Option Nat) (clean : Bool) (l : List Sequence) : List Sequence :=
  Sequences.violate (Sequences.dropCollected q l) ++
    [{ seq := q, phase := .configWritten, collected := false, violated := !clean }]

/-- A wait of sequence `q` (R217). Where a session has several sequences `q` in ConfigWritten, the spec does not
say which of them waits: that the wait takes every one of them to Waiting is this model's choice. Log 21. -/
def Sequences.await (q : Option Nat) (l : List Sequence) : List Sequence :=
  l.map fun e => if e.seq = q ∧ e.phase = .configWritten then { e with phase := .waiting } else e

/-- A conversion read of sequence `q`: it collects the oldest open sequence `q`, and violates every other
open one (R211). -/
def Sequences.collect (q : Option Nat) : List Sequence → List Sequence
  | [] => []
  | e :: l =>
    if e.isOpen = true ∧ e.seq = q then
      { e with phase := .waiting, collected := true } :: Sequences.violate l
    else e.violate :: Sequences.collect q l

/-- A conversion read of sequence `q` may rely on the register: the sequence it collects is not violated;
or it collects none, and none is open that it would violate (R211). -/
def Sequences.trusts (q : Option Nat) (l : List Sequence) : Bool :=
  match l.find? fun e => e.isOpen && decide (e.seq = q) with
  | some e => !e.violated
  | none => Sequences.allClosed l

/-- The oldest sequence `q` whose result has been collected is in SampleRead: DECR has decoded it (R217). That a
DECR of any other two bytes counts as well is this model's choice. Log 21. -/
def Sequences.decoded (q : Option Nat) : List Sequence → List Sequence
  | [] => []
  | e :: l =>
    if e.seq = q ∧ e.collected = true ∧ e.phase = .waiting then { e with phase := .sampleRead } :: l
    else e :: Sequences.decoded q l

/-- The oldest sequence `q` in SampleRead is in Idle: SCALE has given its output (R217). R217's output is of the
sequence's own RawSample and configured gain; that a SCALE of any other `raw` or gain counts as well is this
model's choice. Log 21. -/
def Sequences.output (q : Option Nat) (l : List Sequence) : List Sequence :=
  l.eraseP fun e => decide (e.seq = q ∧ e.phase = .sampleRead)

/-- Sequence `q` is in Idle: it has ended with a fault, a failed transfer or a cancellation (R171, R213,
R214, R217). The actions of a session that carry no number are taken as one sequence, so `q = none` ends
every sequence there without a number, whichever state it is in; that is this model's choice. Log 31. -/
def Sequences.finish (q : Option Nat) (l : List Sequence) : List Sequence :=
  l.filter fun e => !decide (e.seq = q)

/-- After the result of a block request of sequence `q`: a FAULT ends it (R171), DECR takes it from Waiting to
SampleRead, and SCALE is its output (R217), whatever bytes, `raw` and gain they carry. Log 21. -/
def Sequences.afterResult (q : Option Nat) (r : Result) (l : List Sequence) : List Sequence :=
  match r with
  | .fault _ => Sequences.finish q l
  | .ok (.decr _) => Sequences.decoded q l
  | .ok (.scale _) => Sequences.output q l
  | .ok _ => l

end Sys2Proof.Machine
end

