-- ==== Sys2Proof/Machine/Bus.lean ====
section
/-! DEFINITION. The device behind the register pointers (20_memory.md section 1; 10_state.md section
2) and the two bus transfers (R51). Every duty of the requester (70_reset_and_hazards.md R210 to
R214) shows here as what a transfer does when the duty is kept and when it is broken. -/

namespace Sys2Proof.Machine

/-- MODE of a Configuration word says continuous conversion (R83). -/
def isContinuous (w : Word16) : Bool :=
  operatingMode (unpack (msbOf w) (lsbOf w)).mode = .continuous

/-- OS of a Configuration word says start a conversion (R80, R60). -/
def isTrigger (w : Word16) : Bool :=
  osWrite (unpack (msbOf w) (lsbOf w)).os = .startConversion

/-- Writing this word makes the device convert: OS = 1 starts a conversion (R60, R80), and in continuous
mode the converter free-runs and OS has no effect (R83, R80). -/
def startsConverting (w : Word16) : Bool := isContinuous w || isTrigger w

/-- The conversion in flight has completed once its settle time has passed (R210, R30): the Conversion
register holds its sample, or an open word if the conversion was violated (R211), except that in continuous
mode, or with unknown contents, the next one may follow. Log 11, log 27. -/
def Device.settle (now : Nat) (d : Device) : Device :=
  match d.flight with
  | none => d
  | some f =>
    if f.readyAt ≤ now then
      { d with flight := none
               conversion := if f.determinate then f.sample else f.other
               conversionContents :=
                 if f.determinate || (d.configKnown && !isContinuous d.config) then .held
                 else .running }
    else d

/-- The first tick at which a conversion read returns the result of a conversion whose Configuration
write `w` completed at `now` (R210). -/
def settledAt (now : Nat) (w : Word16) : Nat :=
  now + conversionTicks (unpack (msbOf w) (lsbOf w)).dr + Config.settleMargin

/-- The tick until which the conversion that `w` starts at `now` is being performed (R84). Log 9. -/
def busyUntil (now : Nat) (w : Word16) : Nat :=
  now + conversionTicks (unpack (msbOf w) (lsbOf w)).dr

/-- The device is known to convert continuously: the contents of its Configuration register are known, and
their MODE says so. Unknown contents tell nothing (R205). -/
def Device.continuous (d : Device) : Bool := d.configKnown && isContinuous d.config

/-- The conversion in flight, marked as one whose sample no read may rely on (R211). -/
def Device.spoil (d : Device) : Device :=
  { d with flight := d.flight.map fun f => { f with determinate := false } }

/-- A Configuration write of `w` that completed at `now`: the register is replaced whole (R60), and if
`w` makes the device convert, a conversion is in flight. A write that is not `clean` (a sequence of the
session is open), or that comes before an earlier conversion's settle time has passed, violates R211 for
both. `k` numbers the draws of this write. Log 11, log 12.
A write that ends continuous mode and starts nothing leaves an open word in the register, the same at
every read from then on (R60): what conversion it is of, and that none completes after the write, the spec
leaves open (R30, N26), and it is this model's choice. Log 33. -/
def Device.configWrite (now k : Nat) (clean : Bool) (w : Word16) (d₀ : Device) : Device :=
  let d := Device.settle now d₀
  if startsConverting w then
    { d with config := w
             configKnown := true
             flight := some
               { readyAt := max (settledAt now w) ((d.flight.map Flight.readyAt).getD 0)
                 busyUntil := min (busyUntil now w) ((d.flight.map Flight.busyUntil).getD (busyUntil now w))
                 sample := Config.conversionSample k
                 other := Config.freeWord k
                 determinate := d.flight.isNone && clean } }
  else if d.conversionContents = .running ∨ Device.continuous d = true then
    { Device.spoil d with
        config := w, configKnown := true, conversion := Config.freeWord k, conversionContents := .held }
  else { Device.spoil d with config := w, configKnown := true }

/-- A Configuration write whose transfer failed: the register's contents, and with them every
conversion, are unknown from now on (R205, R213). Log 13. -/
def Device.configWriteFailed (now : Nat) (d₀ : Device) : Device :=
  { Device.spoil (Device.settle now d₀) with configKnown := false, conversionContents := .running }

/-- The device after a conversion read at `now`. A read before the settle time spoils the conversion for
every later read (R211). In continuous mode a later conversion may have completed by the next read, so
nothing is known of that one (N26, D27). No register changes. Log 11, log 12. -/
def Device.afterConversionRead (now : Nat) (d₀ : Device) : Device :=
  let d := Device.settle now d₀
  { Device.spoil d with
      conversionContents := if Device.continuous d then .running else d.conversionContents }

/-- The word in the Conversion register of the device at `a` at `now`: a free draw, number `k`, while a
conversion is in flight (R210); the word power-up left, until a conversion replaces it (R205, R60), and a
free draw if the device converts continuously after power-up and no write has made its contents known
(R205); the word held (R60); and a free draw where conversions may follow one another. -/
def Device.registerWord (a : BitVec 7) (now k : Nat) (d₀ : Device) : Word16 :=
  let d := Device.settle now d₀
  if d.flight.isSome then Config.freeWord k
  else
    match d.conversionContents with
    | .held => d.conversion
    | .powerUp =>
      if d.configKnown || !Config.powerUpContinuous a then Config.powerUpConversion a
      else Config.freeWord k
    | .running => Config.freeWord k

/-- The word a conversion read of sequence `q` at `now` returns: the register's, and a free draw, number
`k`, for a read of a violated sequence (R211). -/
def Session.conversionWord (a : BitVec 7) (q : Option Nat) (now k : Nat) (x : Session) : Word16 :=
  if Sequences.trusts q x.sequences then Device.registerWord a now k x.device else Config.freeWord k

/-- The OS bit of a read-back at `now` (R80, read direction): 0 in continuous mode and within the
conversion time of a conversion in flight, 1 when none is in flight, and between those two a free bit,
number `k` (U16, R218). Log 9. -/
def Device.osReadBack (now k : Nat) (d₀ : Device) : BitVec 1 :=
  let d := Device.settle now d₀
  if isContinuous d.config then 0
  else
    match d.flight with
    | none => 1
    | some f => if now < f.busyUntil then 0 else Config.freeBit k

/-- The Configuration word a read-back at `now` returns: every field but OS as it was written (R25),
and a free draw where the contents are unknown (R205, U3). -/
def Device.configWord (now k : Nat) (d : Device) : Word16 :=
  if d.configKnown then withOs (Device.osReadBack now k d) d.config
  else Config.freeWord k

/-- The register a pointer byte names (R52, D15). -/
inductive Register where
  | conversion | config
  deriving DecidableEq, Repr

/-- The pointer map of R52: 0x02 and 0x03 are not covered, 0x04 to 0xFF are no address. -/
def registerOf (pointer : Byte) : Except Refusal Register :=
  if pointer = conversionPointer then .ok .conversion
  else if pointer = configPointer then .ok .config
  else if pointer = 0x02 ∨ pointer = 0x03 then .error (.uncoveredRegister pointer)
  else .error (.notAnAddress pointer)

/-- The Configuration word that the bytes of a `write` carry: pointer 0x01 and exactly two data bytes,
MSB first (R55, R57, R78). -/
def writtenWord : List Byte → Except Refusal Word16
  | [] => .error .transferLength
  | pointer :: data =>
    match registerOf pointer with
    | .error e => .error e
    | .ok .conversion => .error (if data = [] then .transferLength else .writeToConversion)
    | .ok .config =>
      match data with
      | [msb, lsb] => .ok (word16 msb lsb)
      | _ => .error .transferLength

/-- The register that a `writeThenRead` of `bytes` and `len` reads: one pointer byte, and exactly two
bytes read (R57, R59, R78). -/
def readRegister (bytes : List Byte) (len : Int) : Except Refusal Register :=
  match bytes with
  | [] => .error .transferLength
  | pointer :: data =>
    match registerOf pointer with
    | .error e => .error e
    | .ok r => if data = [] ∧ len = 2 then .ok r else .error .transferLength

/-- The sequences after a completed Configuration write of `w` in sequence `q`: it begins the sequence if `w`
makes the device convert, and violates every open one (R211). -/
def Sequences.afterWrite (q : Option Nat) (w : Word16) (clean : Bool) (l : List Sequence) : List Sequence :=
  if startsConverting w then Sequences.begin q clean l else Sequences.violate l

/-- `write(bytes)` in sequence `q`, one indivisible transfer (R51, R59). A completed one that makes the
device convert begins the sequence; any one violates the sequences that are open (R211); a failed one is
reported as TransportError and ends its sequence (R213, R217). -/
def busWrite (a : BitVec 7) (q dst : Option Nat) (bytes : List Byte) (ok : Bool) (s : State) : Out :=
  match writtenWord bytes with
  | .error e => .refused e
  | .ok w =>
    let x := s.session a
    let clean := Sequences.allClosed x.sequences
    let settled := (Device.settle s.now x.device).flight.isNone
    if ok then
      .next (((s.setSession a
        { device := Device.configWrite s.now s.draws clean w x.device
          sequences := Sequences.afterWrite q w (settled && clean) x.sequences }).drawn).report a q dst
            (.ok .busWritten))
    else
      .next ((s.setSession a
        { device := Device.configWriteFailed s.now x.device
          sequences := Sequences.violate (Sequences.finish q x.sequences) }).report a q dst
            (.fault .transportError))

/-- The two bytes of a word in bus order (R54). -/
def busRead (w : Word16) : Result := .ok (.busRead (msbOf w) (lsbOf w))

/-- `writeThenRead(bytes, len)` in sequence `q`, one indivisible transaction (R51, R59). A read has no side
effect on the device's registers (R60, D27); a conversion read collects its sequence and violates every
other open one (R211); a failed read is reported and ends its sequence (R213, R217). Log 30. -/
def busWriteThenRead (a : BitVec 7) (q dst : Option Nat) (bytes : List Byte) (len : Int) (ok : Bool)
    (s : State) : Out :=
  match readRegister bytes len with
  | .error e => .refused e
  | .ok r =>
    let x := s.session a
    match r, ok with
    | .conversion, true =>
      .next (((s.setSession a
        { device := Device.afterConversionRead s.now x.device
          sequences := Sequences.collect q x.sequences }).drawn).report a q dst
            (busRead (Session.conversionWord a q s.now s.draws x)))
    | .config, true =>
      .next ((s.drawn).report a q dst (busRead (Device.configWord s.now s.draws x.device)))
    | .conversion, false =>
      .next ((s.setSequences a (Sequences.violate (Sequences.finish q x.sequences))).report a q dst
        (.fault .transportError))
    | .config, false =>
      .next ((s.setSequences a (Sequences.finish q x.sequences)).report a q dst
        (.fault .transportError))

/-- Time passes for every device; the sequence that waits is in Waiting (R210, R217). -/
def busWait (a : BitVec 7) (q : Option Nat) (ticks : Nat) (s : State) : Out :=
  .next ((s.setSequences a (Sequences.await q (s.session a).sequences)).elapse ticks)

/-- The sequence is abandoned and reported as Cancelled (R214, R176); its conversion stays in flight
until its settle time has passed. Log 22. -/
def busCancel (a : BitVec 7) (q dst : Option Nat) (s : State) : Out :=
  .next ((s.setSequences a (Sequences.finish q (s.session a).sequences)).report a q dst
    (.fault .cancelled))

end Sys2Proof.Machine
end

