-- ==== Sys2Proof/Machine/Requester.lean ====
section
/-! DEFINITION. The requester's side of a step: taking the next action, presenting a request to the
block through the decoder, naming its result, and moving the session's sequences
(70_reset_and_hazards.md R217). -/

namespace Sys2Proof.Machine

/-- After the block has answered: the requester checks and names the result, and a FAULT ends sequence
`q`, DECR and SCALE move it on (R213, R217). -/
def conclude (a : BitVec 7) (q dst : Option Nat) (s : State) : State :=
  match s.result with
  | none => s
  | some r =>
    (s.setSequences a (Sequences.afterResult q r (s.session a).sequences)).report a q dst r

/-- What follows the block's outcome: a stop stays a stop. -/
def concludeOut (a : BitVec 7) (q dst : Option Nat) : Out → Out
  | .next s => .next (conclude a q dst s)
  | .fault f => .fault f
  | .refused r => .refused r

/-- Present a request: the decoder reads it, a reserved `op` is answered with IllegalOp (R73, R174),
and an operation is evaluated by `ex`. -/
def present (ex : Instr → State → Out) (a : BitVec 7) (q dst : Option Nat) (r : Request)
    (s : State) : Out :=
  match decode r with
  | .ok i => concludeOut a q dst (ex i s)
  | .error (.illegalOp op) => concludeOut a q dst (raise (.illegalOp op) s)
  | .error (.decrByteCount n) => .refused (.decrByteCount n)

/-- Perform one action. -/
def perform (ex : Instr → State → Out) (x : Action) (s : State) : Out :=
  match x.act with
  | .request dst r => present ex x.addr x.seq dst r s
  | .line dst l =>
    match Line.toRequest s.results l with
    | .error e => Stop.out e
    | .ok r => present ex x.addr x.seq dst r s
  | .write dst bytes ok =>
    match FrameArg.value s.results bytes with
    | .error e => Stop.out e
    | .ok b => busWrite x.addr x.seq dst b ok s
  | .writeThenRead dst bytes len ok =>
    match FrameArg.value s.results bytes with
    | .error e => Stop.out e
    | .ok b =>
      match Operand.value s.results len with
      | .error e => Stop.out e
      | .ok n => busWriteThenRead x.addr x.seq dst b n ok s
  | .wait ticks => busWait x.addr x.seq ticks s
  | .cancel dst => busCancel x.addr x.seq dst s

/-- Take the next pending action and perform it (R21, R218). -/
def stepWith (ex : Instr → State → Out) (s : State) : Out :=
  match s.pending with
  | [] => .refused .noRequest
  | x :: rest => perform ex x (s.withPending rest)

/-- A request placed where the next step takes its action; nothing else changes. The block does not
see which session it belongs to, so address 0 stands for any, and it carries no sequence number (log 2). -/
def State.withRequest (r : Request) (s : State) : State :=
  { s with pending := { addr := 0, act := .request none r } :: s.pending }

/-- One conversion in the order of R204: CHSEL, ENC, CFGFRAME, bus write, settle wait, CONVFRAME, bus
write-then-read, DECR, SCALE, as sequence `q` of the session at `a`. Results r1 to r8 name what each line
gives. R203 leaves MODE to the caller's policy, and the comparator fields to the caller or the documented
defaults; that this sequence takes MODE = 1 and the four defaults, through ENCSS (R93), is this model's
choice, and another requester's list of actions may take others. Log 32. -/
def conversionActions (a : BitVec 7) (q : Nat) (label : String) (gain dr : BitVec 3) (ticks : Nat)
    (writeOk readOk : Bool) : List Action :=
  [ .line (some 1) (.chsel label),
    .line (some 2) (.encss (.port 1 .mux) (.lit gain.toNat) (.lit dr.toNat)),
    .line (some 3) (.cfgframe (.port 2 .msb) (.port 2 .lsb)),
    .write (some 4) (.port 3) writeOk,
    .wait ticks,
    .line (some 5) .convframe,
    .writeThenRead (some 6) (.port 5) (.port 5 .rdlen) readOk,
    .line (some 7) (.decr (.port 6 .high) (.port 6 .low)),
    .line (some 8) (.scale (.port 7 .raw) (.lit gain.toNat)) ].map
      fun act => { addr := a, seq := some q, act := act }

end Sys2Proof.Machine
end

