-- ==== Sys2Proof/Machine/Step.lean ====
section
/-! DEFINITION. One step: the requester's next action is performed, and a request among them is
evaluated by the block (70_reset_and_hazards.md R218). -/

namespace Sys2Proof.Machine

/-- One step of the whole system. -/
def step (s : State) : Host.Outcome State Fault Refusal := stepWith exec s

/-- `s` with the request of an opcode-table word presented next (log 2). -/
def State.withFetchWord (s : State) (_nbits w : Nat) : State :=
  match Request.ofTableWord w with
  | none => s
  | some r => s.withRequest r

end Sys2Proof.Machine
end

