-- ==== Sys2Proof/Machine/Asm.lean ====
section
/-! DEFINITION. The assembler's text (30_encoding.md R92, R93): one request a line, with an optional
result name. A line of text is read into a `Line`; what it means is `Line.toRequest`. Log 25. -/

namespace Sys2Proof.Machine

/-- The tokens of a line. -/
inductive Token where
  | word (s : String)
  | num (v : Nat)
  /-- A number with a leading minus. -/
  | minus (v : Nat)
  | text (s : String)
  | comma | equals | dot | open | close
  deriving DecidableEq, Repr

/-- The value of a digit in a base. -/
def digitValue (base : Nat) (c : Char) : Option Nat :=
  let v := if '0' ≤ c ∧ c ≤ '9' then c.toNat - 48
    else if 'a' ≤ c ∧ c ≤ 'f' then c.toNat - 87
    else if 'A' ≤ c ∧ c ≤ 'F' then c.toNat - 55
    else base
  if v < base then some v else none

/-- The number that digits spell, most significant first, onto `acc`. -/
def digitsValue (base : Nat) (acc : Nat) : List Char → Option Nat
  | [] => some acc
  | c :: cs =>
    match digitValue base c with
    | none => none
    | some v => digitsValue base (acc * base + v) cs

/-- An unsigned literal: decimal, `0x` hex or `0b` binary (R92). -/
def literalValue : List Char → Option Nat
  | [] => none
  | ['0', 'x'] => none
  | ['0', 'b'] => none
  | '0' :: 'x' :: cs => digitsValue 16 0 cs
  | '0' :: 'b' :: cs => digitsValue 2 0 cs
  | cs => digitsValue 10 0 cs

/-- A character of a word or of a number. -/
def isWordChar (c : Char) : Bool := c.isAlphanum || c == '_'

/-- Split a line into tokens; `fuel` bounds the number of tokens. -/
def tokens : Nat → List Char → Option (List Token)
  | _, [] => some []
  | 0, _ :: _ => none
  | fuel + 1, c :: cs =>
    let rest := cs.dropWhile isWordChar
    let run := cs.takeWhile isWordChar
    if c = ' ' then tokens fuel cs
    else if c = ',' then (tokens fuel cs).map (Token.comma :: ·)
    else if c = '=' then (tokens fuel cs).map (Token.equals :: ·)
    else if c = '.' then (tokens fuel cs).map (Token.dot :: ·)
    else if c = '<' then (tokens fuel cs).map (Token.open :: ·)
    else if c = '>' then (tokens fuel cs).map (Token.close :: ·)
    else if c = '"' then
      match cs.dropWhile (· != '"') with
      | [] => none
      | _ :: after =>
        (tokens fuel after).map (Token.text (String.ofList (cs.takeWhile (· != '"'))) :: ·)
    else if c = '-' then
      match literalValue run, tokens fuel rest with
      | some v, some ts => some (Token.minus v :: ts)
      | _, _ => none
    else if c.isDigit then
      match literalValue (c :: run), tokens fuel rest with
      | some v, some ts => some (Token.num v :: ts)
      | _, _ => none
    else if isWordChar c then
      (tokens fuel rest).map (Token.word (String.ofList (c :: run)) :: ·)
    else none

/-- The spelling of each output port that an operand may name (R71). `frame` carries bytes and not a number, so
a text with `rN.frame` for an operand is no line, whatever `rN` is: R92 lets an operand name an output port and
does not say which, nor what an operand port makes of a frame, and this is the model's choice. Log 25. -/
def portNames : List (String × PortName) :=
  [("os", .os), ("mux", .mux), ("pga", .pga), ("mode", .mode), ("dr", .dr), ("cmode", .cmode),
   ("cpol", .cpol), ("clat", .clat), ("cque", .cque), ("msb", .msb), ("lsb", .lsb),
   ("raw", .raw), ("fsr_mv", .fsrMv), ("lsb_pv", .lsbPv), ("volts_pv", .voltsPv),
   ("rdlen", .rdlen), ("high", .high), ("low", .low)]

/-- The number of a result name `rN`. -/
def resultNumber (w : String) : Option Nat :=
  match w.toList with
  | 'r' :: c :: cs => digitsValue 10 0 (c :: cs)
  | _ => none

/-- An operand as it is written; a leading minus is kept apart from the number, so that `-0` has one. -/
structure WrittenOperand where
  minus   : Bool
  operand : Operand
  deriving DecidableEq, Repr

/-- One operand: a literal, or a port of a named result (R92). -/
def writtenOperand : List Token → Option WrittenOperand
  | [.num v] => some { minus := false, operand := .lit v }
  | [.minus v] => some { minus := true, operand := .lit (-(v : Int)) }
  | [.word r, .dot, .word p] =>
    match resultNumber r, portNames.lookup p with
    | some n, some q => some { minus := false, operand := .port n q }
    | _, _ => none
  | _ => none

/-- The tokens between commas. -/
def commaParts : List Token → List (List Token)
  | [] => [[]]
  | .comma :: ts => [] :: commaParts ts
  | t :: ts =>
    match commaParts ts with
    | [] => [[t]]
    | p :: ps => (t :: p) :: ps

/-- Operands separated by commas (R92). -/
def operands (ts : List Token) : Option (List WrittenOperand) :=
  if ts = [] then some [] else (commaParts ts).mapM writtenOperand

/-- The operands stand where R92 allows what they are: a leading minus, before 0 as before any number, at
`raw` of SCALE alone. -/
def minusAllowed (mnemonic : String) (os : List WrittenOperand) : Bool :=
  match os with
  | [_, gain] => if mnemonic = "SCALE" then !gain.minus else os.all (!·.minus)
  | _ => os.all (!·.minus)

/-- A line from its mnemonic and operands (R92, R93). -/
def lineOf (mnemonic : String) (os : List WrittenOperand) : Option Line :=
  if minusAllowed mnemonic os then
    match mnemonic, os.map WrittenOperand.operand with
    | "ENC", [a, b, c, d, e, f, g, h, i] => some (.enc a b c d e f g h i)
    | "DECF", [msb, lsb] => some (.decf msb lsb)
    | "DECR", [high, low] => some (.decr high low)
    | "GAINLUT", [gain] => some (.gainlut gain)
    | "SCALE", [raw, gain] => some (.scale raw gain)
    | "CFGFRAME", [msb, lsb] => some (.cfgframe msb lsb)
    | "CONVFRAME", [] => some .convframe
    | "ENCSS", [mux, pga, dr] => some (.encss mux pga dr)
    | _, _ => none
  else none

/-- A line without its result name. `<op n>` presents the bare code `n` on operand ports that are all zero.
R92's grammar has no such line: the test vectors write reserved operations so, and that a code 0x0 to 0x7 is
accepted as well, and runs its operation on those zero ports, is this model's choice. Log 25. -/
def bareLine : List Token → Option Line
  | [.word "CHSEL", .text label] => some (.chsel label)
  | [.open, .word "op", .num v, .close] =>
    if v < 16 then some (.bareOp (BitVec.ofNat 4 v)) else none
  | .word m :: ts =>
    match operands ts with
    | none => none
    | some os => lineOf m os
  | _ => none

/-- A line of assembler text as an action's content: `[rN =] OP operands` (R92). -/
def assemble (source : String) : Option Act :=
  match tokens source.length source.toList with
  | none => none
  | some (.word r :: .equals :: ts) =>
    match resultNumber r, bareLine ts with
    | some n, some l => some (.line (some n) l)
    | _, _ => none
  | some ts =>
    match bareLine ts with
    | some l => some (.line none l)
    | none => none

end Sys2Proof.Machine
end

