-- ==== Sys2Proof/Safety.lean ====
section
/-! DEFINITION. What claims speak of: lawful results and devices, the invariant of the whole state,
and what it means that the requester keeps its duties (70_reset_and_hazards.md section 3). -/

namespace Sys2Proof.Machine

/-- A result the block can place on its result port: only faults 1 to 4, each with the detail R170
gives it, and outputs within the range R140, R151, R160 and R161 give. -/
def Result.lawful : Result → Bool
  | .fault (.invalidFieldValue _) => true
  | .fault .unknownChannel => true
  | .fault (.unsupportedGainCode gain) => decide (6 ≤ gain.toNat)
  | .fault (.illegalOp op) => decide (8 ≤ op.toNat)
  | .fault .transportError => false
  | .fault .cancelled => false
  | .ok (.enc _ _) => true
  | .ok (.decf _) => true
  | .ok (.decr _) => true
  | .ok (.gainlut fsrMv lsbPv) =>
    gainTable.any fun e => decide (fsrMv.toNat = e.fsrMv) && decide (lsbPv.toNat = e.lsbPv)
  | .ok (.scale voltsPv) => decide (voltsPv.toInt.natAbs ≤ 6144000000000)
  | .ok (.chsel _) => true
  | .ok (.cfgframe frame) => decide (frame.length = 3) && decide (frame.head? = some 0x01)
  | .ok (.convframe frame rdlen) => decide (frame = [0x00]) && decide (rdlen = 2)
  | .ok .busWritten => false
  | .ok (.busRead _ _) => false

/-- A result the requester can have named: one of the block's, or the outcome of a transfer or of a
cancellation (R176). -/
def Result.nameable (r : Result) : Bool :=
  Result.lawful r ||
    match r with
    | .fault .transportError => true
    | .fault .cancelled => true
    | .ok .busWritten => true
    | .ok (.busRead _ _) => true
    | _ => false

/-- What every device keeps: no transfer reaches the thresholds (R29); a conversion in flight settles
within the slowest conversion time and the margin (R210), is performed no longer than that, and a read may
rely on it only with known Configuration contents (R205); and with none in flight, the Conversion register
holds one word unless the mode is continuous or the contents are unknown (R60). -/
def Device.lawful (now : Nat) (d : Device) : Bool :=
  decide (d.loThreshold = 0x8000) && decide (d.hiThreshold = 0x7FFF) &&
  match d.flight with
  | none =>
    match d.conversionContents with
    | .held => true
    | .powerUp => !Device.continuous d
    | .running => !d.configKnown || isContinuous d.config
  | some f =>
    decide (f.readyAt ≤ now + slowestConversionTicks + Config.settleMargin) &&
    decide (f.busyUntil ≤ f.readyAt) && (!f.determinate || d.configKnown)

/-- Where a sequence stands agrees with whether its result has been collected (R217): not in ConfigWritten,
and surely in SampleRead. -/
def Sequence.lawful (e : Sequence) : Bool :=
  match e.phase with
  | .configWritten => !e.collected
  | .waiting => true
  | .sampleRead => e.collected

/-- The invariant of the whole state: both lists canonical, every result, device and sequence lawful. -/
structure Inv (s : State) : Prop where
  results_rising   : Assoc.rising s.results = true
  sessions_rising  : Assoc.rising s.sessions = true
  sessions_on_bus  : s.sessions.all (fun e => decide (e.1 < 128)) = true
  sessions_touched : s.sessions.all (fun e => decide (e.2 ≠ Session.powerUp)) = true
  devices_lawful   : s.sessions.all (fun e => Device.lawful s.now e.2.device) = true
  sequences_lawful : s.sessions.all (fun e => e.2.sequences.all Sequence.lawful) = true
  results_nameable : s.results.all (fun e => Result.nameable e.2) = true
  result_lawful    : s.result.all Result.lawful = true

/-- A value that names a port of a FAULT result uses an output that was not checked (R213). -/
def usesFault {α : Type} : Except Stop α → Bool
  | .error (.fault _) => true
  | _ => false

/-- A conversion read of sequence `q` that keeps the duties: it collects the one open sequence (R211), and no
failed write has made the contents unknown (R205, R213). So every read that keeps them has a Configuration
write of its own, one issued anew after a failure too (R205, R215). That a repeated read of a result already
collected, which R211 does not speak of, does not keep them is this model's choice. Log 34. -/
def Session.mayRead (q : Option Nat) (x : Session) : Bool :=
  match x.opened with
  | [e] => decide (e.seq = q) && x.device.configKnown
  | _ => false

/-- The requester keeps R210, R211, R213, R214 and R215 in its next action: no output of a faulted result is
used; a Configuration write comes neither while a sequence of its device is open, whichever it is, nor
before the settle time of a conversion in flight there; a conversion read is of the open sequence
and does not come before the settle time. -/
def dutyKept (s : State) : Bool :=
  match s.pending with
  | [] => true
  | x :: _ =>
    let y := s.session x.addr
    let settled := (Device.settle s.now y.device).flight.isNone
    match x.act with
    | .request _ _ => true
    | .line _ l => !usesFault (Line.toRequest s.results l)
    | .write _ bytes _ =>
      !usesFault (FrameArg.value s.results bytes) &&
      match FrameArg.value s.results bytes with
      | .error _ => true
      | .ok b =>
        match writtenWord b with
        | .error _ => true
        | .ok _ => Sequences.allClosed y.sequences && settled
    | .writeThenRead _ bytes len _ =>
      !usesFault (FrameArg.value s.results bytes) && !usesFault (Operand.value s.results len) &&
      match FrameArg.value s.results bytes, Operand.value s.results len with
      | .ok b, .ok n =>
        match readRegister b n with
        | .ok .conversion => Session.mayRead x.seq y && settled
        | _ => true
      | _, _ => true
    | .wait _ => true
    | .cancel _ => true

/-- What keeping the duties keeps of a session: at most one sequence is open, it is not violated, its
conversion is in flight, and a read may rely on a conversion in flight (R210, R211). -/
def Session.disciplined (x : Session) : Bool :=
  decide (x.opened.length ≤ 1) && x.opened.all (fun e => !e.violated) &&
  match x.device.flight with
  | none => decide (x.opened = [])
  | some f => f.determinate

/-- Every session is disciplined. -/
def State.disciplined (s : State) : Bool := s.sessions.all fun e => Session.disciplined e.2

end Sys2Proof.Machine
end

