-- ==== Sys2Proof/Certificates/Slice0/Obligations.lean ====
section
/-! DEFINITION. The statements about the model. A docstring names the spec's rule, and where the
statement rests on a decision of the spec's own (92_eei_decisions.md) or of this model (log <n>). -/

open Sys2Proof Sys2Proof.Machine

namespace Sys2Proof.Machine

/-- ENC on nine values given by field. -/
def encOf (v : Field → Nat) : Instr :=
  .enc (v .os) (v .mux) (v .pga) (v .mode) (v .dr) (v .cmode) (v .cpol) (v .clat) (v .cque)

/-- Every value fits its field (R112). -/
def InRange (v : Field → Nat) : Prop := ∀ f, v f < 2 ^ Field.width f

/-- ENC on the nine values of an unpacked word. -/
def encOfFields (c : Configuration) : Instr :=
  .enc c.os.toNat c.mux.toNat c.pga.toNat c.mode.toNat c.dr.toNat
    c.cmode.toNat c.cpol.toNat c.clat.toNat c.cque.toNat

/-- The eight channel labels, in the order of their MUX codes (R89). -/
def channelLabels : List String :=
  ["AIN0-AIN1", "AIN0-AIN3", "AIN1-AIN3", "AIN2-AIN3", "AIN0", "AIN1", "AIN2", "AIN3"]

/-- The next action of `s` is `act`, at address `a` and of sequence `q`, and then `rest`. -/
def nextAct (s : State) (a : BitVec 7) (q : Option Nat) (act : Act) (rest : List Action) : Prop :=
  s.pending = { addr := a, seq := q, act := act } :: rest

/-- What an operand port carries: a natural, a `w`-bit number, or an `s16` (R71, R75). -/
inductive PortKind where
  | nat
  | bits (w : Nat)
  | s16

/-- The port carries the value. -/
def PortKind.carries : PortKind → Int → Bool
  | .nat, v => decide (0 ≤ v)
  | .bits w, v => decide (0 ≤ v ∧ v < 2 ^ w)
  | .s16, v => decide (-32768 ≤ v ∧ v ≤ 32767)

/-- The operands of a line, from left to right, with the ports they stand at (R71, R92, R93). -/
def Line.ports : Line → List (PortKind × Operand)
  | .enc os mux pga mode dr cmode cpol clat cque =>
    [(.nat, os), (.nat, mux), (.nat, pga), (.nat, mode), (.nat, dr),
     (.nat, cmode), (.nat, cpol), (.nat, clat), (.nat, cque)]
  | .decf msb lsb => [(.bits 8, msb), (.bits 8, lsb)]
  | .decr high low => [(.bits 8, high), (.bits 8, low)]
  | .gainlut gain => [(.bits 3, gain)]
  | .scale raw gain => [(.s16, raw), (.bits 3, gain)]
  | .chsel _ => []
  | .cfgframe msb lsb => [(.bits 8, msb), (.bits 8, lsb)]
  | .convframe => []
  | .encss mux pga dr => [(.nat, mux), (.nat, pga), (.nat, dr)]
  | .bareOp _ => []

/-- The operand has a value, and its port carries it. -/
def Resolves (results : List (Nat × Result)) (e : PortKind × Operand) : Prop :=
  ∃ v, Operand.value results e.2 = .ok v ∧ PortKind.carries e.1 v = true

/-- What an operand `rN.port`, or a frame `rN`, carries where `rN` is OK with these outputs (R71, R92). -/
def PortsCarry (results : List (Nat × Result)) (n : Nat) : Outputs → Prop
  | .enc msb lsb =>
    Operand.value results (.port n .msb) = .ok msb.toNat ∧
    Operand.value results (.port n .lsb) = .ok lsb.toNat
  | .decf c =>
    Operand.value results (.port n .os) = .ok c.os.toNat ∧
    Operand.value results (.port n .mux) = .ok c.mux.toNat ∧
    Operand.value results (.port n .pga) = .ok c.pga.toNat ∧
    Operand.value results (.port n .mode) = .ok c.mode.toNat ∧
    Operand.value results (.port n .dr) = .ok c.dr.toNat ∧
    Operand.value results (.port n .cmode) = .ok c.cmode.toNat ∧
    Operand.value results (.port n .cpol) = .ok c.cpol.toNat ∧
    Operand.value results (.port n .clat) = .ok c.clat.toNat ∧
    Operand.value results (.port n .cque) = .ok c.cque.toNat
  | .decr raw => Operand.value results (.port n .raw) = .ok raw.toInt
  | .gainlut fsrMv lsbPv =>
    Operand.value results (.port n .fsrMv) = .ok fsrMv.toNat ∧
    Operand.value results (.port n .lsbPv) = .ok lsbPv.toNat
  | .scale voltsPv => Operand.value results (.port n .voltsPv) = .ok voltsPv.toInt
  | .chsel mux => Operand.value results (.port n .mux) = .ok mux.toNat
  | .cfgframe frame => FrameArg.value results (.port n) = .ok frame
  | .convframe frame rdlen =>
    FrameArg.value results (.port n) = .ok frame ∧
    Operand.value results (.port n .rdlen) = .ok rdlen.toNat
  | .busWritten => True
  | .busRead high low =>
    Operand.value results (.port n .high) = .ok high.toNat ∧
    Operand.value results (.port n .low) = .ok low.toNat

/-- The request has the line's operation, and each of its ports carries the value of the line's operand for
it, unchanged (R71, R72, R75, R92; R93 for ENCSS). -/
def Line.Spells (results : List (Nat × Result)) (r : Request) : Line → Prop
  | .enc os mux pga mode dr cmode cpol clat cque =>
    r.op = 0x0 ∧ Operand.value results os = .ok r.os ∧ Operand.value results mux = .ok r.mux ∧
    Operand.value results pga = .ok r.pga ∧ Operand.value results mode = .ok r.mode ∧
    Operand.value results dr = .ok r.dr ∧ Operand.value results cmode = .ok r.cmode ∧
    Operand.value results cpol = .ok r.cpol ∧ Operand.value results clat = .ok r.clat ∧
    Operand.value results cque = .ok r.cque
  | .decf msb lsb =>
    r.op = 0x1 ∧ Operand.value results msb = .ok r.msb.toNat ∧
    Operand.value results lsb = .ok r.lsb.toNat
  | .decr high low =>
    r.op = 0x2 ∧ ∃ h l : Byte, r.bytes = [h, l] ∧ Operand.value results high = .ok h.toNat ∧
      Operand.value results low = .ok l.toNat
  | .gainlut gain => r.op = 0x3 ∧ Operand.value results gain = .ok r.gain.toNat
  | .scale raw gain =>
    r.op = 0x4 ∧ Operand.value results raw = .ok r.raw.toInt ∧
    Operand.value results gain = .ok r.gain.toNat
  | .chsel label => r.op = 0x5 ∧ r.label = label
  | .cfgframe msb lsb =>
    r.op = 0x6 ∧ Operand.value results msb = .ok r.msb.toNat ∧
    Operand.value results lsb = .ok r.lsb.toNat
  | .convframe => r.op = 0x7
  | .encss mux pga dr =>
    r.op = 0x0 ∧ r.os = 1 ∧ Operand.value results mux = .ok r.mux ∧
    Operand.value results pga = .ok r.pga ∧ r.mode = 1 ∧ Operand.value results dr = .ok r.dr ∧
    r.cmode = 0 ∧ r.cpol = 0 ∧ r.clat = 0 ∧ r.cque = 3
  | .bareOp op => r.op = op

/-- `t` is reached from `s` by steps none of which is on a completed write at address `a`. -/
inductive ReachedWithoutWrite (a : BitVec 7) (s : State) : State → Prop where
  | start : ReachedWithoutWrite a s s
  | more {t u : State} {x : Action} {rest : List Action} :
      ReachedWithoutWrite a s t → t.pending = x :: rest →
      ¬ (x.addr = a ∧ ∃ dst bytes, x.act = .write dst bytes true) →
      step t = .next u → ReachedWithoutWrite a s u

/-- An open sequence after a transfer that violates it: its number and phase are as before. -/
def Sequence.marked (e : Sequence) : Sequence := { e with violated := true }

/-- `l'` is `l` with the first sequence that `p` holds of replaced by what `f` gives for it, or `l` if `p` holds
of none. -/
def MovesFirst (p : Sequence → Bool) (f : Sequence → List Sequence) (l l' : List Sequence) : Prop :=
  (∃ before e after, l = before ++ e :: after ∧ (∀ x ∈ before, p x = false) ∧ p e = true ∧
      l' = before ++ f e ++ after) ∨
  ((∀ x ∈ l, p x = false) ∧ l' = l)

/-- A conversion read as CONVFRAME frames it, answered by the transport (R161, R78). -/
def conversionRead (n : Nat) : Act := .writeThenRead (some n) (.lit [0x00]) (.lit 2) true

/-- A Configuration write as CFGFRAME frames it (R160, R78). -/
def configWrite (n : Nat) (msb lsb : Byte) (ok : Bool) : Act :=
  .write (some n) (.lit [0x01, msb, lsb]) ok

/-- A read-back of the Configuration register (R52). -/
def configRead (n : Nat) : Act := .writeThenRead (some n) (.lit [0x01]) (.lit 2) true

end Sys2Proof.Machine

/-! ### The operations -/

/-- R110, R76: in-range values are packed at the positions of R24 (D5); nothing else changes. -/
def Obligations.EncPacksInRangeFields : Prop :=
  ∀ (s : State) (v : Field → Nat), InRange v →
    ∃ msb lsb : Byte,
      exec (encOf v) s = .next { s with result := some (.ok (.enc msb lsb)) } ∧
      msb.toNat = 128 * v .os + 16 * v .mux + 2 * v .pga + v .mode ∧
      lsb.toNat = 32 * v .dr + 16 * v .cmode + 8 * v .cpol + 4 * v .clat + v .cque

/-- R112: ENC faults exactly when a value is outside its field's limits, and otherwise answers OK. -/
def Obligations.EncRejectsExactlyTooWideValues : Prop :=
  ∀ (s : State) (os mux pga mode dr cmode cpol clat cque : Nat),
    (2 ≤ os ∨ 8 ≤ mux ∨ 8 ≤ pga ∨ 2 ≤ mode ∨ 8 ≤ dr ∨ 2 ≤ cmode ∨ 2 ≤ cpol ∨ 2 ≤ clat ∨ 4 ≤ cque →
      ∃ f, exec (.enc os mux pga mode dr cmode cpol clat cque) s =
        .next { s with result := some (.fault (.invalidFieldValue f)) }) ∧
    (os ≤ 1 ∧ mux ≤ 7 ∧ pga ≤ 7 ∧ mode ≤ 1 ∧ dr ≤ 7 ∧ cmode ≤ 1 ∧ cpol ≤ 1 ∧ clat ≤ 1 ∧ cque ≤ 3 →
      ∃ msb lsb, exec (.enc os mux pga mode dr cmode cpol clat cque) s =
        .next { s with result := some (.ok (.enc msb lsb)) })

/-- R110, R111, R172 (the spec's choice, D11, D12): the reported field is the first one, in index
order, that is too wide, and the fault's info is its index. -/
def Obligations.EncReportsLowestOffendingField : Prop :=
  ∀ (s : State) (v : Field → Nat) (f : Field),
    2 ^ Field.width f ≤ v f →
    (∀ g, Field.index g < Field.index f → v g < 2 ^ Field.width g) →
    exec (encOf v) s = .next { s with result := some (.fault (.invalidFieldValue f)) } ∧
    Result.code (.fault (.invalidFieldValue f)) = 1 ∧
    Result.info (.fault (.invalidFieldValue f)) = Field.index f

/-- R115: the nine fields, by arithmetic on the two bytes; positions by D5, OS uninterpreted by D24. -/
def Obligations.DecfReadsEachField : Prop :=
  ∀ (s : State) (msb lsb : Byte), ∃ c : Configuration,
    exec (.decf msb lsb) s = .next { s with result := some (.ok (.decf c)) } ∧
    c.os.toNat = msb.toNat / 128 ∧ c.mux.toNat = msb.toNat / 16 % 8 ∧
    c.pga.toNat = msb.toNat / 2 % 8 ∧ c.mode.toNat = msb.toNat % 2 ∧
    c.dr.toNat = lsb.toNat / 32 ∧ c.cmode.toNat = lsb.toNat / 16 % 2 ∧
    c.cpol.toNat = lsb.toNat / 8 % 2 ∧ c.clat.toNat = lsb.toNat / 4 % 2 ∧
    c.cque.toNat = lsb.toNat % 4

/-- R77, R54: high byte first, two's complement from bit 15; every pair of bytes decodes. -/
def Obligations.DecrIsBigEndianSigned : Prop :=
  ∀ (s : State) (high low : Byte), ∃ raw : Word16,
    exec (.decr [high, low]) s = .next { s with result := some (.ok (.decr raw)) } ∧
    raw.toNat = 256 * high.toNat + low.toNat ∧
    raw.toInt = if high.toNat < 128 then (256 * high.toNat + low.toNat : Int)
                else 256 * high.toNat + low.toNat - 65536

/-- R130 (D9): a byte list of another length is no request, for the operation and for the decoder. -/
def Obligations.DecrRefusesOtherLengths : Prop :=
  ∀ (s : State) (bytes : List Byte), bytes.length ≠ 2 →
    exec (.decr bytes) s = .refused (.decrByteCount bytes.length) ∧
    ∀ r : Request, r.op = 0x2 → r.bytes = bytes → decode r = .error (.decrByteCount bytes.length)

/-- R141, R140 (codes by D6, the two faulting codes by D7, units by D8). -/
def Obligations.GainlutAnswersTheTable : Prop :=
  ∀ (s : State) (gain : BitVec 3),
    (gain.toNat < 6 → ∃ (fsrMv : BitVec 16) (lsbPv : BitVec 32),
      exec (.gainlut gain) s = .next { s with result := some (.ok (.gainlut fsrMv lsbPv)) } ∧
      [6144, 4096, 2048, 1024, 512, 256][gain.toNat]? = some fsrMv.toNat ∧
      lsbPv.toNat * 32768 = fsrMv.toNat * 1000000000) ∧
    (6 ≤ gain.toNat →
      exec (.gainlut gain) s = .next { s with result := some (.fault (.unsupportedGainCode gain)) })

/-- R150, R151 (D6, D7, D8): the exact product, whose size R151 bounds, or the gain fault whatever
`raw` is. -/
def Obligations.ScaleIsTheExactProduct : Prop :=
  ∀ (s : State) (raw : Word16) (gain : BitVec 3),
    (∀ lsb : Nat,
      [187500000, 125000000, 62500000, 31250000, 15625000, 7812500][gain.toNat]? = some lsb →
      ∃ v : BitVec 64,
        exec (.scale raw gain) s = .next { s with result := some (.ok (.scale v)) } ∧
        v.toInt = raw.toInt * lsb ∧ v.toInt.natAbs ≤ 6144000000000) ∧
    (6 ≤ gain.toNat →
      exec (.scale raw gain) s = .next { s with result := some (.fault (.unsupportedGainCode gain)) })

/-- R120, R89 (codes by D6, exact matching by D10): the eight labels have their codes, every other
label faults. -/
def Obligations.ChselKnowsExactlyEightLabels : Prop :=
  ∀ (s : State) (label : String),
    (∀ mux : BitVec 3, channelLabels[mux.toNat]? = some label →
      exec (.chsel label) s = .next { s with result := some (.ok (.chsel mux)) }) ∧
    (label ∉ channelLabels →
      exec (.chsel label) s = .next { s with result := some (.fault .unknownChannel) })

/-- R160: the pointer 0x01, then the two bytes, whatever they hold. -/
def Obligations.CfgframePrefixesConfigPointer : Prop :=
  ∀ (s : State) (msb lsb : Byte),
    exec (.cfgframe msb lsb) s = .next { s with result := some (.ok (.cfgframe [0x01, msb, lsb])) }

/-- R161: the pointer 0x00 and the read length 2, always. -/
def Obligations.ConvframeIsConstant : Prop :=
  ∀ s : State, exec .convframe s = .next { s with result := some (.ok (.convframe [0x00] 2)) }

/-- R173 (exact labels by D10, log 19; codes 6 and 7 unsupported by D7, log 18): no unknown label, too wide
value or unsupported gain code is turned into another one. -/
def Obligations.NoOperationSubstitutesADefault : Prop :=
  ∀ s : State,
    (∀ label, label ∉ channelLabels →
      exec (.chsel label) s = .next { s with result := some (.fault .unknownChannel) }) ∧
    (∀ v : Field → Nat, ¬ InRange v →
      ∃ f, exec (encOf v) s = .next { s with result := some (.fault (.invalidFieldValue f)) }) ∧
    (∀ (gain : BitVec 3) (raw : Word16), 6 ≤ gain.toNat →
      exec (.gainlut gain) s = .next { s with result := some (.fault (.unsupportedGainCode gain)) } ∧
      exec (.scale raw gain) s = .next { s with result := some (.fault (.unsupportedGainCode gain)) })

/-! ### Laws of the codec -/

/-- R116: decoding what ENC packed gives the values back (D5). -/
def Obligations.EncThenDecfReturnsFields : Prop :=
  ∀ (s s' : State) (v : Field → Nat), InRange v →
    ∃ (msb lsb : Byte) (c : Configuration),
      exec (encOf v) s = .next { s with result := some (.ok (.enc msb lsb)) } ∧
      exec (.decf msb lsb) s' = .next { s' with result := some (.ok (.decf c)) } ∧
      encOfFields c = encOf v

/-- R117: packing what DECF unpacked gives the bytes back, with no fault (D5). -/
def Obligations.DecfThenEncReturnsBytes : Prop :=
  ∀ (s s' : State) (msb lsb : Byte), ∃ c : Configuration,
    exec (.decf msb lsb) s = .next { s with result := some (.ok (.decf c)) } ∧
    exec (encOfFields c) s' = .next { s' with result := some (.ok (.enc msb lsb)) }

/-- R118: changing one field changes only that field's bits of the word (D5). -/
def Obligations.EncIsolatesFields : Prop :=
  ∀ (s : State) (v v' : Field → Nat) (f : Field), InRange v → InRange v' →
    (∀ g, g ≠ f → v g = v' g) →
    ∃ msb lsb msb' lsb' : Byte,
      exec (encOf v) s = .next { s with result := some (.ok (.enc msb lsb)) } ∧
      exec (encOf v') s = .next { s with result := some (.ok (.enc msb' lsb')) } ∧
      ∀ i, i < 16 → Field.covers f i = false →
        (word16 msb lsb).getLsbD i = (word16 msb' lsb').getLsbD i

/-- R121: every MUX code has exactly one label (D6). -/
def Obligations.EveryMuxCodeHasOneLabel : Prop :=
  ∀ (s : State) (mux : BitVec 3), ∃ label,
    exec (.chsel label) s = .next { s with result := some (.ok (.chsel mux)) } ∧
    ∀ other, exec (.chsel other) s = .next { s with result := some (.ok (.chsel mux)) } →
      other = label

/-- R131: DECR is onto the RawSamples, and the two bytes of a RawSample are the only ones that decode
to it. -/
def Obligations.DecrInvertsRawBytes : Prop :=
  ∀ (s : State) (raw : Int), -32768 ≤ raw → raw ≤ 32767 →
    ∃ w : Word16, w.toInt = raw ∧
      exec (.decr [(bytesOfRaw raw).1, (bytesOfRaw raw).2]) s =
        .next { s with result := some (.ok (.decr w)) } ∧
      ∀ high low : Byte,
        exec (.decr [high, low]) s = .next { s with result := some (.ok (.decr w)) } →
          (high, low) = bytesOfRaw raw

/-- R140, R152 (D6, D8): a reading in volts is the sample times full scale over 32768, exactly. -/
def Obligations.ReadingIsExactInVolts : Prop :=
  ∀ (s : State) (raw : Word16) (gain : BitVec 3) (e : GainEntry),
    gainEntry gain = some e →
    ∃ v : BitVec 64,
      exec (.scale raw gain) s = .next { s with result := some (.ok (.scale v)) } ∧
      readingVolts v = (raw.toInt : Rat) * (e.fsrMv : Rat) / 32768000 ∧
      readingVolts v = (raw.toInt : Rat) * GainEntry.voltsPerCount e

/-- R142: over codes 0 to 5 both columns of the GainTable strictly decrease (D6). -/
def Obligations.GainTableStrictlyDecreases : Prop :=
  ∀ (gain gain' : BitVec 3) (e e' : GainEntry),
    gainEntry gain = some e → gainEntry gain' = some e' → gain.toNat < gain'.toNat →
    e'.fsrMv < e.fsrMv ∧ e'.lsbPv < e.lsbPv

/-- R153: SCALE is odd in `raw`, and linear for a fixed gain. -/
def Obligations.ScaleIsOddAndLinear : Prop :=
  ∀ (s : State) (r1 r2 : Word16) (gain : BitVec 3), gain.toNat < 6 →
    ∃ (v1 v2 : BitVec 64) (e : GainEntry),
      gainEntry gain = some e ∧
      exec (.scale r1 gain) s = .next { s with result := some (.ok (.scale v1)) } ∧
      exec (.scale r2 gain) s = .next { s with result := some (.ok (.scale v2)) } ∧
      v1.toInt + v2.toInt = (r1.toInt + r2.toInt) * e.lsbPv ∧
      (r2.toInt = -r1.toInt → v2.toInt = -v1.toInt)

/-- R162 (D5, D6): the golden bytes of a requester that frames a single-shot configuration. -/
def Obligations.SingleShotFrameBytes : Prop :=
  ∀ (s : State) (results : List (Nat × Result)) (mux gain dr : BitVec 3) (label : String),
    channelLabels[mux.toNat]? = some label →
    ∃ msb lsb : Byte,
      exec (.chsel label) s = .next { s with result := some (.ok (.chsel mux)) } ∧
      Line.toRequest results (.encss (.lit mux.toNat) (.lit gain.toNat) (.lit dr.toNat)) =
        .ok (encode (.enc 1 mux.toNat gain.toNat 1 dr.toNat 0 0 0 3)) ∧
      exec (.enc 1 mux.toNat gain.toNat 1 dr.toNat 0 0 0 3) s =
        .next { s with result := some (.ok (.enc msb lsb)) } ∧
      exec (.cfgframe msb lsb) s =
        .next { s with result := some (.ok (.cfgframe [0x01, msb, lsb])) } ∧
      msb.toNat = 128 + 16 * mux.toNat + 2 * gain.toNat + 1 ∧
      lsb.toNat = 32 * dr.toNat + 3

/-! ### The block as a whole -/

/-- R12: for every request there is one result, OK or FAULT, whatever the state; nothing but the result
port changes. A DECR list that is not two bytes is not a request. -/
def Obligations.OperationsAreFunctionsOfTheRequest : Prop :=
  ∀ i : Instr, i.wf = true →
    ∃ r : Result, Result.lawful r = true ∧
      ∀ s : State, exec i s = .next { s with result := some r }

/-- R171: a faulting operation changes nothing but tag, code and info, and has no output. -/
def Obligations.FaultsHaveNoOutputAndNoEffect : Prop :=
  ∀ (i : Instr) (s t : State) (f : BlockFault),
    exec i s = .next t → t.result = some (.fault f) →
    Result.outputs (.fault f) = none ∧ t = { s with result := some (.fault f) } ∧
    ∀ (t' : State) (j : Instr), exec j t = .next t' → exec j s = .next t'

/-- R174, R175 (D12): each operation raises only its own kind of fault; DECF, DECR and the framing
operations raise none, and none raises IllegalOp. -/
def Obligations.EachOperationRaisesOnlyItsFault : Prop :=
  ∀ (i : Instr) (s t : State) (f : BlockFault),
    exec i s = .next t → t.result = some (.fault f) →
    match i with
    | .enc _ _ _ _ _ _ _ _ _ => ∃ g, f = .invalidFieldValue g
    | .gainlut gain => f = .unsupportedGainCode gain
    | .scale _ gain => f = .unsupportedGainCode gain
    | .chsel _ => f = .unknownChannel
    | .decf _ _ => False
    | .decr _ => False
    | .cfgframe _ _ => False
    | .convframe => False

/-- R74, R170, R172 (numbers by D11; log 20): the tag, code and info of every result that an operation or a
step on a request leaves on the port: 0, 0, 0 on OK, and on FAULT the tag 1 and, by name, InvalidFieldValue
with code 1 and the field's index, UnknownChannel with code 2 and 0, UnsupportedGainCode with code 3 and the
gain code, and IllegalOp with code 4 and `op`. -/
def Obligations.ResultPortEncodesTheResult : Prop :=
  ∀ (s t : State) (res : Result), t.result = some res →
    ((∃ i : Instr, exec i s = .next t) ∨
      ∃ (a : BitVec 7) (q dst : Option Nat) (r : Request) (rest : List Action),
        nextAct s a q (.request dst r) rest ∧ step s = .next t) →
    match res with
    | .ok o =>
      Result.tag res = 0 ∧ Result.code res = 0 ∧ Result.info res = 0 ∧ Result.outputs res = some o
    | .fault f =>
      Result.tag res = 1 ∧ Result.outputs res = none ∧
      match f with
      | .invalidFieldValue field =>
        Result.code res = 1 ∧
        [Field.os, .mux, .pga, .mode, .dr, .cmode, .cpol, .clat, .cque][Result.info res]? = some field
      | .unknownChannel => Result.code res = 2 ∧ Result.info res = 0
      | .unsupportedGainCode gain =>
        Result.code res = 3 ∧ Result.info res = gain.toNat ∧ (gain.toNat = 6 ∨ gain.toNat = 7)
      | .illegalOp op => Result.code res = 4 ∧ Result.info res = op.toNat ∧ 8 ≤ op.toNat
      | .transportError => False
      | .cancelled => False

/-! ### Decoding and the step -/

/-- R71, R72 (D3): the decoder reads back what the encoder wrote, accepts only requests, and reads the
operation from `op`. -/
def Obligations.DecodeInvertsEncode : Prop :=
  (∀ i : Instr, i.wf = true → decode (encode i) = .ok i) ∧
  (∀ (r : Request) (i : Instr), decode r = .ok i → i.wf = true ∧ r.op = (encode i).op) ∧
  (∀ i j : Instr, i.wf = true → encode i = encode j → i = j)

/-- R72, R90 (D3): the decoder reads each operation from its code, on the operands of the examples of
95_test_vectors.md programs P1 to P4. -/
def Obligations.OpCodesSelectOperations : Prop :=
  decode { op := 0b0000, os := 1, mux := 6, pga := 1, mode := 1, dr := 4, cque := 3 } =
    .ok (.enc 1 6 1 1 4 0 0 0 3) ∧
  decode { op := 0b0001, msb := 0x8B, lsb := 0xE3 } = .ok (.decf 0x8B 0xE3) ∧
  decode { op := 0b0010, bytes := [0xFC, 0x18] } = .ok (.decr [0xFC, 0x18]) ∧
  decode { op := 0b0011, gain := 1 } = .ok (.gainlut 1) ∧
  decode { op := 0b0100, raw := 0x1234, gain := 1 } = .ok (.scale 0x1234 1) ∧
  decode { op := 0b0101, label := "AIN2" } = .ok (.chsel "AIN2") ∧
  decode { op := 0b0110, msb := 0xE3, lsb := 0x83 } = .ok (.cfgframe 0xE3 0x83) ∧
  decode { op := 0b0111 } = .ok .convframe ∧
  decode { op := 0b1001 } = .error (.illegalOp 9)

/-- R70, R21: a request that decodes to `i` is evaluated as `i`; the action is consumed, and then the
requester's bookkeeping follows (log 2, log 21), which the next statement spells out. -/
def Obligations.StepRunsTheDecodedRequest : Prop :=
  ∀ (s : State) (a : BitVec 7) (q dst : Option Nat) (r : Request) (rest : List Action) (i : Instr),
    nextAct s a q (.request dst r) rest → decode r = .ok i →
    step s =
      match exec i { s with pending := rest } with
      | .next t => .next (conclude a q dst t)
      | .fault f => .fault f
      | .refused e => .refused e

/-- R92, R213, R217 (log 21, log 29, log 31): a request that decodes is answered; its result stands on the
port and under its name, if it has one, and under no other; a FAULT returns its sequence to Idle and ends it;
an answered DECR takes its sequence, once its result has been collected, from Waiting to SampleRead, and an
answered SCALE takes it from there to Idle; nothing else moves a sequence, and no device changes. That the
actions of a session without a number are one sequence is the model's choice (log 31), and so is that of
several sequences of one number it is the oldest that moves, and that it moves whatever bytes DECR decodes and
whatever `raw` and gain SCALE carries (log 21). -/
def Obligations.RequestsAreNamedAndMoveThePhase : Prop :=
  ∀ (s : State) (a : BitVec 7) (q dst : Option Nat) (r : Request) (rest : List Action) (i : Instr),
    nextAct s a q (.request dst r) rest → decode r = .ok i →
    ∃ (t : State) (res : Result), step s = .next t ∧
      exec i { s with pending := rest } = .next { s with pending := rest, result := some res } ∧
      t.result = some res ∧
      (∀ n, dst = some n → Assoc.get n t.results = some res) ∧
      (∀ m, dst ≠ some m → Assoc.get m t.results = Assoc.get m s.results) ∧
      (∀ f, res = .fault f → t.pending = dropSequence a q rest ∧ (t.session a).phase q = none ∧
        ∀ e, e ∈ (t.session a).sequences ↔ e ∈ (s.session a).sequences ∧ e.seq ≠ q) ∧
      (∀ o, res = .ok o → t.pending = rest) ∧
      (∀ raw, res = .ok (.decr raw) →
        MovesFirst (fun e => decide (e.seq = q ∧ e.collected = true ∧ e.phase = .waiting))
          (fun e => [{ e with phase := .sampleRead }])
          (s.session a).sequences (t.session a).sequences) ∧
      (∀ v, res = .ok (.scale v) →
        MovesFirst (fun e => decide (e.seq = q ∧ e.phase = .sampleRead)) (fun _ => [])
          (s.session a).sequences (t.session a).sequences) ∧
      (∀ o, res = .ok o → (∀ raw, o ≠ .decr raw) → (∀ v, o ≠ .scale v) →
        (t.session a).sequences = (s.session a).sequences) ∧
      (∀ b, (t.session b).device = (s.session b).device) ∧
      (∀ b, b ≠ a → t.session b = s.session b)

/-- R92, R93, R75, R71 (D21; log 24): a line whose operands all have a value that their ports carry is
evaluated as a request of its operation that carries them unchanged, and a line that resolves to a request
is evaluated as that one; a value that its port cannot carry is refused and never truncated, whichever
operand it is, the operands before it resolving. A literal is its own value, and `rN.port` is the value
that the named result's port carries. What `<op n>` stands for is the model's choice (log 25). -/
def Obligations.StepRunsTheResolvedLine : Prop :=
  ∀ (s : State) (a : BitVec 7) (q dst : Option Nat) (l : Line) (rest : List Action),
    nextAct s a q (.line dst l) rest →
    ((∀ e ∈ Line.ports l, Resolves s.results e) → ∃ r, Line.toRequest s.results l = .ok r) ∧
    (∀ r, Line.toRequest s.results l = .ok r → Line.Spells s.results r l ∧
      step s = step { s with pending := { addr := a, seq := q, act := .request dst r } :: rest }) ∧
    (∀ (before after : List (PortKind × Operand)) (k : PortKind) (o : Operand) (v : Int),
      Line.ports l = before ++ (k, o) :: after → (∀ e ∈ before, Resolves s.results e) →
      Operand.value s.results o = .ok v → PortKind.carries k v = false →
      step s = .refused .operandDoesNotFit) ∧
    (∀ v, Operand.value s.results (.lit v) = .ok v) ∧
    (∀ n o, Assoc.get n s.results = some (.ok o) → PortsCarry s.results n o)

/-- R73, R174 (D3, D12): a reserved `op` is answered with IllegalOp, whatever the operand ports carry;
nothing else happens but the naming of the result, the return of its sequence to Idle and that sequence's
end (R217; log 31). -/
def Obligations.ReservedOpsAreIllegal : Prop :=
  ∀ (s : State) (a : BitVec 7) (q : Option Nat) (n : Nat) (r : Request) (rest : List Action),
    nextAct s a q (.request (some n) r) rest → 8 ≤ r.op.toNat →
    ∃ t, step s = .next t ∧
      t.result = some (.fault (.illegalOp r.op)) ∧
      Result.code (.fault (.illegalOp r.op)) = 4 ∧
      Result.info (.fault (.illegalOp r.op)) = r.op.toNat ∧
      Assoc.get n t.results = some (.fault (.illegalOp r.op)) ∧
      (∀ m, m ≠ n → Assoc.get m t.results = Assoc.get m s.results) ∧
      (t.session a).device = (s.session a).device ∧
      (t.session a).phase q = none ∧
      (∀ e, e.seq ≠ q → (e ∈ (t.session a).sequences ↔ e ∈ (s.session a).sequences)) ∧
      (∀ b, b ≠ a → t.session b = s.session b) ∧
      t.pending = dropSequence a q rest ∧ t.now = s.now ∧ t.draws = s.draws

/-- R20, R51 (D1): a block request or a line reaches no device, draws nothing and takes no time. What it takes
off the list: its own action, and on FAULT also the rest of its action's sequence, which is the model's choice
(log 31), made from R171 and R217, where a fault returns to Idle, and R213, where a tag is checked before the
output is used. -/
def Obligations.RequestsReachNoDevice : Prop :=
  ∀ (s t : State) (x : Action) (rest : List Action),
    s.pending = x :: rest →
    ((∃ dst r, x.act = .request dst r) ∨ (∃ dst l, x.act = .line dst l)) →
    step s = .next t →
    (∀ b, (t.session b).device = (s.session b).device) ∧
    (∀ b, b ≠ x.addr → t.session b = s.session b) ∧
    t.now = s.now ∧ t.draws = s.draws ∧
    (∀ o, t.result = some (.ok o) → t.pending = rest) ∧
    (∀ f, t.result = some (.fault f) → t.pending = dropSequence x.addr x.seq rest)

/-- R61, R183 (D23): two requests give the same named results and leave the same devices in either order, and
the same sequences too, but for a DECR and a SCALE of one sequence, which R217 puts in this order (log 21). Of
two requests of one numbered sequence, the requester presents the second only if the first is OK (R213;
log 31), so for those both are answered OK. -/
def Obligations.RequestOrderDoesNotMatter : Prop :=
  ∀ (s : State) (a b : BitVec 7) (k l : Option Nat) (m n : Nat) (r r' : Request)
    (rest : List Action) (t u t' u' : State),
    Assoc.rising s.results = true → m ≠ n →
    nextAct s a k (.request (some m) r) ({ addr := b, seq := l, act := .request (some n) r' } :: rest) →
    step s = .next t → step t = .next u →
    step { s with pending := { addr := b, seq := l, act := .request (some n) r' } ::
                             { addr := a, seq := k, act := .request (some m) r } :: rest } = .next t' →
    step t' = .next u' →
    (a = b → k = l → k ≠ none →
      (∃ o, t.result = some (.ok o)) ∧ (∃ o, t'.result = some (.ok o))) →
    u.results = u'.results ∧ (∀ c, (u.session c).device = (u'.session c).device) ∧
    (∀ c, ¬ (c = a ∧ a = b ∧ k = l ∧
        ((r.op = 0x2 ∧ r'.op = 0x4) ∨ (r.op = 0x4 ∧ r'.op = 0x2))) →
      u.session c = u'.session c) ∧
    u.now = u'.now ∧ u.draws = u'.draws ∧ u.pending = u'.pending

/-- R92 (D21; log 24): a line that names a port of a FAULT result in any operand, the operands before it
resolving, stops the requester, and so does a transfer that names one for its frame or its read length. That an
operand of a line cannot name the port `frame` is the model's choice (log 25). -/
def Obligations.NamingAFaultStopsTheRequester : Prop :=
  ∀ (s : State) (a : BitVec 7) (q dst : Option Nat) (n : Nat) (f : BlockFault) (rest : List Action),
    Assoc.get n s.results = some (.fault f) →
    (∀ (l : Line) (before after : List (PortKind × Operand)) (k : PortKind) (p : PortName),
      nextAct s a q (.line dst l) rest → Line.ports l = before ++ (k, .port n p) :: after →
      (∀ e ∈ before, Resolves s.results e) → step s = .fault (.requesterStops n)) ∧
    (∀ ok, nextAct s a q (.write dst (.port n) ok) rest → step s = .fault (.requesterStops n)) ∧
    (∀ len ok, nextAct s a q (.writeThenRead dst (.port n) len ok) rest →
      step s = .fault (.requesterStops n)) ∧
    (∀ arg b p ok, nextAct s a q (.writeThenRead dst arg (.port n p) ok) rest →
      FrameArg.value s.results arg = .ok b → step s = .fault (.requesterStops n))

/-- R93, R203 (D20, D21): ENCSS is ENC with OS, MODE and the comparator fields filled in. -/
def Obligations.EncssIsEncWithDefaults : Prop :=
  ∀ (results : List (Nat × Result)) (mux pga dr : Operand),
    Line.toRequest results (.encss mux pga dr) =
      Line.toRequest results
        (.enc (.lit 1) mux pga (.lit 1) dr (.lit 0) (.lit 0) (.lit 0) (.lit 3))

/-! ### The invariant and the duties -/

/-- Every step keeps `Inv`. Its clauses: results lawful (R74, R140, R151, R160, R161, R170, R176); a
conversion in flight settles within the slowest conversion time and the margin (R210, R84), and a read may
rely on it only with known contents (R205). The model's own choices among them: the thresholds stay at the
family's values (PRESUMED, log 7), the sessions' list is canonical with no untouched entry and so is the
results' (DESIGN CHOICE, log 23), until when a conversion is performed (log 9), what spoils it (log 11), and
that with none in flight the Conversion register holds one word but in continuous mode and with unknown
contents (R60; log 12, log 13, log 33), and which phases a sequence can be in before and after its
result is collected (R217; log 21). -/
def Obligations.StepKeepsTheInvariant : Prop :=
  ∀ s t : State, Inv s → step s = .next t → Inv t

/-- The system before the first action meets the invariant. -/
def Obligations.ResetMeetsTheInvariant : Prop := Inv State.reset

/-- R210, R211, R213, R214 (D19; log 11, log 21, log 31): while the requester keeps its duties, no sequence
is ever violated. The duties are those of R5 too. That a repeated read of a result already collected does not
keep them is the model's choice (log 34). -/
def Obligations.KeptDutiesKeepDiscipline : Prop :=
  ∀ s t : State, s.disciplined = true → dutyKept s = true → step s = .next t →
    t.disciplined = true

/-- Before the first action every session is disciplined. -/
def Obligations.ResetIsDisciplined : Prop := State.reset.disciplined = true

/-- R210, R211 (D19; log 11, log 12): where the duties are kept, the conversion read that collects an open
sequence returns the sample of the conversion in flight, and not a free draw. That it is the first
conversion's sample in continuous mode too is the model's choice (log 12). A read that keeps the duties is of
the one open sequence (R5, R205, R215), which it collects and leaves in Waiting: DECR takes it to SampleRead
(R217; log 21). -/
def Obligations.KeptDutiesReadTheSample : Prop :=
  ∀ (s : State) (a : BitVec 7) (q : Option Nat) (n : Nat) (rest : List Action),
    nextAct s a q (conversionRead n) rest →
    s.disciplined = true → dutyKept s = true →
    ∃ f t, (s.session a).device.flight = some f ∧ step s = .next t ∧
      Assoc.get n t.results = some (.ok (.busRead (msbOf f.sample) (lsbOf f.sample))) ∧
      (t.session a).device.conversion = f.sample ∧ (t.session a).opened = [] ∧
      (∃ e, (s.session a).opened = [e] ∧ e.seq = q) ∧
      ∃ e ∈ (t.session a).sequences,
        e.seq = q ∧ e.phase = .waiting ∧ e.collected = true ∧ e.violated = false

/-! ### The device and the bus -/

/-- R54, R130: the two bytes a conversion read delivers decode to the word the device held. -/
def Obligations.DeliveredBytesDecodeToTheWord : Prop :=
  ∀ (s : State) (w : Word16), ∃ high low : Byte,
    busRead w = .ok (.busRead high low) ∧
    exec (.decr [high, low]) s = .next { s with result := some (.ok (.decr w)) }

/-- R60, R55, R80, R83, R210 (D19, D24, D27, GK7; log 11): a completed Configuration write replaces the
register whole. With OS = 1 in single-shot mode, a sequence begins and a conversion is in flight that settles
no earlier than R210 says, and exactly then if none was in flight before; every older sequence stays with its
number and phase, but for one of the same number whose result has been collected. The conversion is performed
for 1/DR (R84), and when this write overtakes a conversion in flight, until the earlier of the two ends
(log 9), and it settles when both have (log 11); a read may rely on its sample, the draw of this write, exactly
if the write violates nothing, and otherwise the register holds an open word, a draw of this write too, once it
has settled (log 11). With MODE = 0 the same follows whatever
OS is, which has no effect there: that clause is the model's choice (log 12). That the sequence stands in
ConfigWritten right after the write, and takes the place of one of its number already collected, is the
model's choice too (log 21). With OS = 0 in single-shot mode
nothing starts: no sequence begins, a conversion in flight stays, spoilt by this write (log 11), and a word
that the register holds, or that power-up left, stays; the word after continuous mode is the model's choice,
and so is the one after contents that were unknown (log 33). The
open sequences are violated in every case. Other devices, the thresholds and the clock are untouched. -/
def Obligations.ConfigWriteReplacesAndTriggers : Prop :=
  ∀ (s : State) (a : BitVec 7) (q : Option Nat) (n : Nat) (msb lsb : Byte) (rest : List Action)
    (d : Device),
    nextAct s a q (configWrite n msb lsb true) rest →
    Device.settle s.now (s.session a).device = d →
    ∃ t, step s = .next t ∧
      (t.session a).device.config = word16 msb lsb ∧
      (t.session a).device.configKnown = true ∧
      Assoc.get n t.results = some (.ok .busWritten) ∧
      (∀ m, m ≠ n → Assoc.get m t.results = Assoc.get m s.results) ∧
      (128 ≤ msb.toNat ∨ msb.toNat % 2 = 0 →
        (∃ (older : List Sequence) (v : Bool),
          (t.session a).sequences =
            older ++ [{ seq := q, phase := .configWritten, collected := false, violated := v }] ∧
          older.map (fun e => (e.seq, e.phase, e.collected)) =
            ((s.session a).sequences.filter fun e => !decide (e.seq = q ∧ e.collected = true)).map
              (fun e => (e.seq, e.phase, e.collected)) ∧
          (∀ e ∈ older, e.isOpen = true → e.violated = true) ∧
          (v = false ↔ d.flight = none ∧ (s.session a).opened = [])) ∧
        ∃ f, (t.session a).device.flight = some f ∧
          s.now + conversionTicks (lsb.extractLsb' 5 3) + Config.settleMargin ≤ f.readyAt ∧
          (d.flight = none →
            f.readyAt = s.now + conversionTicks (lsb.extractLsb' 5 3) + Config.settleMargin) ∧
          (∀ g, d.flight = some g →
            f.readyAt = max (s.now + conversionTicks (lsb.extractLsb' 5 3) + Config.settleMargin) g.readyAt) ∧
          (d.flight = none → f.busyUntil = s.now + conversionTicks (lsb.extractLsb' 5 3)) ∧
          (∀ g, d.flight = some g →
            f.busyUntil = min (s.now + conversionTicks (lsb.extractLsb' 5 3)) g.busyUntil) ∧
          f.sample = Config.conversionSample s.draws ∧ f.other = Config.freeWord s.draws ∧
          (f.determinate = true ↔ d.flight = none ∧ (s.session a).opened = [])) ∧
      (msb.toNat < 128 → msb.toNat % 2 = 1 →
        (t.session a).sequences.map (fun e => (e.seq, e.phase, e.collected)) =
          (s.session a).sequences.map (fun e => (e.seq, e.phase, e.collected)) ∧
        (∀ e ∈ (t.session a).opened, e.violated = true) ∧
        (d.flight = none → (t.session a).device.flight = none) ∧
        (∀ f, d.flight = some f →
          (t.session a).device.flight = some { f with determinate := false }) ∧
        (d.configKnown = false ∨ isContinuous d.config = false → d.conversionContents ≠ .running →
          (t.session a).device.conversion = d.conversion ∧
          (t.session a).device.conversionContents = d.conversionContents) ∧
        (d.conversionContents = .running ∨ (d.configKnown = true ∧ isContinuous d.config = true) →
          (t.session a).device.conversion = Config.freeWord s.draws ∧
          (t.session a).device.conversionContents = .held)) ∧
      (t.session a).device.loThreshold = (s.session a).device.loThreshold ∧
      (t.session a).device.hiThreshold = (s.session a).device.hiThreshold ∧
      (∀ b, b ≠ a → t.session b = s.session b) ∧
      t.now = s.now ∧ t.draws = s.draws + 1 ∧ t.pending = rest ∧ t.result = s.result

/-- R210 (D19; log 10, log 11, log 28), from the write to the read: a completed write with OS = 1 that
violates nothing, a wait of at least 1/DR + SETTLE_MARGIN, and a completed conversion read deliver the
sample of that write's conversion, high byte first. That they do so in continuous mode too, after a wait of
any such length and whatever OS is (which has no effect there, R80), is the model's choice (log 12): N26
says to assume nothing about which conversion a continuous-mode read returns. That the sequence is in
ConfigWritten right after the write, in Waiting after the wait and, its result collected, still there after
the read is the model's choice too (log 21); DECR takes it to SampleRead (R217). -/
def Obligations.TriggeredConversionIsRead : Prop :=
  ∀ (s : State) (a : BitVec 7) (q : Option Nat) (m n ticks : Nat) (msb lsb : Byte) (rest : List Action),
    nextAct s a q (configWrite m msb lsb true)
      ({ addr := a, seq := q, act := .wait ticks } ::
       { addr := a, seq := q, act := conversionRead n } :: rest) →
    128 ≤ msb.toNat ∨ msb.toNat % 2 = 0 →
    (Device.settle s.now (s.session a).device).flight = none →
    (s.session a).opened = [] →
    conversionTicks (lsb.extractLsb' 5 3) + Config.settleMargin ≤ ticks →
    ∃ t u v, step s = .next t ∧ step t = .next u ∧ step u = .next v ∧
      Assoc.get n v.results =
        some (.ok (.busRead (msbOf (Config.conversionSample s.draws))
          (lsbOf (Config.conversionSample s.draws)))) ∧
      (v.session a).device.conversion = Config.conversionSample s.draws ∧
      (t.session a).phase q = some .configWritten ∧ (u.session a).phase q = some .waiting ∧
      (v.session a).phase q = some .waiting ∧ (v.session a).opened = [] ∧ v.pending = rest

/-- R55, R78: the frame CFGFRAME placed on its port, sent with `write`, loads the Configuration register
with its two bytes, MSB first; the frame and length of CONVFRAME, sent with `writeThenRead`, deliver the
two bytes of a conversion read. -/
def Obligations.FramesDriveTheTransfers : Prop :=
  ∀ (s : State) (a : BitVec 7) (q : Option Nat) (m n : Nat) (rest : List Action),
    (∀ w : Word16,
      Assoc.get m s.results = some (.ok (.cfgframe [0x01, w.extractLsb' 8 8, w.extractLsb' 0 8])) →
      nextAct s a q (.write (some n) (.port m) true) rest →
      ∃ t, step s = .next t ∧ (t.session a).device.config = w ∧
        (t.session a).device.configKnown = true ∧ Assoc.get n t.results = some (.ok .busWritten)) ∧
    (Assoc.get m s.results = some (.ok (.convframe [0x00] 2)) →
      nextAct s a q (.writeThenRead (some n) (.port m) (.port m .rdlen) true) rest →
      ∃ (t : State) (high low : Byte), step s = .next t ∧
        Assoc.get n t.results = some (.ok (.busRead high low)) ∧
        word16 high low = Session.conversionWord a q s.now s.draws (s.session a))

/-- R210 (D19; log 11): a conversion read at or after the settle time of a conversion that nothing violated
returns that conversion's sample, high byte first, and the Conversion register holds it; the read is of an
open sequence that is not violated, or none is open that it would violate. That this is so in continuous
mode too, however late the read comes and whatever OS was written, is the model's choice (log 12): N26 says
to assume nothing about which conversion a continuous-mode read returns. Where the conversion is one whose
sample no read may rely on (R211), such a read returns in its place the open word drawn with it, and the
register holds that (R60; log 11), if the contents are known and the mode is single-shot; otherwise it is a free
draw of its own (log 12, log 13). -/
def Obligations.SettledReadReturnsTheSample : Prop :=
  ∀ (s : State) (a : BitVec 7) (q : Option Nat) (n : Nat) (rest : List Action) (f : Flight),
    nextAct s a q (conversionRead n) rest →
    (s.session a).device.flight = some f → f.readyAt ≤ s.now →
    ((∃ e, (s.session a).opened.find? (fun e => decide (e.seq = q)) = some e ∧ e.violated = false) ∨
      (s.session a).opened = []) →
    ∃ t, step s = .next t ∧
      (f.determinate = true →
        Assoc.get n t.results = some (.ok (.busRead (msbOf f.sample) (lsbOf f.sample))) ∧
        (t.session a).device.conversion = f.sample) ∧
      (f.determinate = false → (s.session a).device.configKnown = true →
        isContinuous (s.session a).device.config = false →
        Assoc.get n t.results = some (.ok (.busRead (msbOf f.other) (lsbOf f.other))) ∧
        (t.session a).device.conversion = f.other ∧
        (t.session a).device.conversionContents = .held) ∧
      (f.determinate = false →
        (s.session a).device.configKnown = false ∨ isContinuous (s.session a).device.config = true →
        Assoc.get n t.results = some (busRead (Config.freeWord s.draws))) ∧
      (t.session a).device.flight = none ∧
      (t.session a).device.config = (s.session a).device.config ∧
      (∀ m, m ≠ n → Assoc.get m t.results = Assoc.get m s.results) ∧
      (∀ b, b ≠ a → t.session b = s.session b) ∧ t.now = s.now ∧ t.result = s.result ∧
      t.draws = s.draws + 1 ∧ t.pending = rest

/-- R210, U1 (D19; log 8): a conversion read before the settle time returns a free draw, with no fault,
and no later read may rely on that conversion, nor on a sequence that is still open (R211; log 11): what a read
returns once it has settled is what `SettledReadReturnsTheSample` says of such a conversion. -/
def Obligations.EarlyReadIsAFreeDraw : Prop :=
  ∀ (s : State) (a : BitVec 7) (q : Option Nat) (n : Nat) (rest : List Action) (f : Flight),
    nextAct s a q (conversionRead n) rest →
    (s.session a).device.flight = some f → s.now < f.readyAt →
    ∃ t, step s = .next t ∧
      Assoc.get n t.results = some (busRead (Config.freeWord s.draws)) ∧
      (∀ m, m ≠ n → Assoc.get m t.results = Assoc.get m s.results) ∧
      t.draws = s.draws + 1 ∧ t.now = s.now ∧ t.result = s.result ∧ t.pending = rest ∧
      (t.session a).device.flight = some { f with determinate := false } ∧
      (∀ e ∈ (t.session a).opened, e.violated = true) ∧
      (t.session a).device.config = (s.session a).device.config ∧
      (∀ b, b ≠ a → t.session b = s.session b)

/-- R211, R214, U2 (log 11, log 21): a completed Configuration write keeps every sequence that is open, with
its number and phase, and violates it; while one is open, whichever it is, or before the settle time of a
conversion in flight (an abandoned one too), the sequence that the write begins is violated as well, and no
read may rely on a conversion. A completed conversion read collects the oldest open sequence of its number,
if there is one, keeps every other open one and violates it; and every conversion read of a violated
sequence, or of none while one is open, is a free draw whenever it comes. That a write with OS = 0 and
MODE = 0 begins a sequence is the model's choice (log 12). -/
def Obligations.OverlappingSequencesReadFreeDraws : Prop :=
  (∀ (s : State) (a : BitVec 7) (q : Option Nat) (n : Nat) (msb lsb : Byte) (rest : List Action),
    nextAct s a q (configWrite n msb lsb true) rest →
    ∃ t, step s = .next t ∧
      (128 ≤ msb.toNat ∨ msb.toNat % 2 = 0 → ∃ v,
        (t.session a).opened = (s.session a).opened.map Sequence.marked ++
          [{ seq := q, phase := .configWritten, collected := false, violated := v }]) ∧
      (msb.toNat < 128 → msb.toNat % 2 = 1 →
        (t.session a).opened = (s.session a).opened.map Sequence.marked) ∧
      ((s.session a).opened ≠ [] ∨
          (∃ f, (s.session a).device.flight = some f ∧ s.now < f.readyAt) →
        (∀ e ∈ (t.session a).opened, e.violated = true) ∧
        ∀ f, (t.session a).device.flight = some f → f.determinate = false)) ∧
  (∀ (s : State) (a : BitVec 7) (q : Option Nat) (n : Nat) (rest : List Action),
    nextAct s a q (conversionRead n) rest →
    ∃ t, step s = .next t ∧
      (t.session a).opened =
        ((s.session a).opened.eraseP fun e => decide (e.seq = q)).map Sequence.marked ∧
      (((∃ e, (s.session a).opened.find? (fun e => decide (e.seq = q)) = some e ∧ e.violated = true) ∨
          ((s.session a).opened ≠ [] ∧ ∀ e ∈ (s.session a).opened, e.seq ≠ q)) →
        Assoc.get n t.results = some (busRead (Config.freeWord s.draws))))

/-- R212: an action at one bus address leaves every other session alone; and from any state that agrees on
that session, the named results, the clock and the draws, whatever the other sessions are, the same action
is answered too, with the same effect. -/
def Obligations.DevicesAreIndependent : Prop :=
  ∀ (s s' t : State) (x : Action) (rest : List Action),
    s.pending = x :: rest → s'.pending = x :: rest →
    s.session x.addr = s'.session x.addr → s.results = s'.results →
    s.now = s'.now → s.draws = s'.draws →
    step s = .next t →
    (∀ b, b ≠ x.addr → t.session b = s.session b) ∧
    ∃ t', step s' = .next t' ∧
      t.session x.addr = t'.session x.addr ∧ t.results = t'.results ∧ t.pending = t'.pending ∧
      t.now = t'.now ∧ t.draws = t'.draws

/-- R60, R205 (D27; log 8, log 11, log 12, log 13, log 15, log 33): two reads of the Conversion register with
no Configuration write and no completing conversion between them return the same word, however long apart,
and change no register: the word held, or the word that power-up left. The premises, in a lawful device
(every device of a state that meets `Inv` is): nothing is in flight; known contents in single-shot mode, where
no conversion may complete in between, or still what power-up left; and no sequence that R211 gives a free
draw: the one open, if there is one, is this and not violated. After power-up the contents are unknown (R205),
so whether the device then converts continuously is open, and if it does, nothing is said of the words
(log 8). -/
def Obligations.RepeatedReadsReturnTheSameWord : Prop :=
  ∀ (s : State) (a : BitVec 7) (q : Option Nat) (m n ticks : Nat) (rest : List Action) (d : Device),
    nextAct s a q (conversionRead m)
      ({ addr := a, seq := q, act := .wait ticks } ::
       { addr := a, seq := q, act := conversionRead n } :: rest) →
    Device.lawful s.now (s.session a).device = true →
    Device.settle s.now (s.session a).device = d → d.flight = none →
    (d.configKnown = true ∧ isContinuous d.config = false) ∨ d.conversionContents = .powerUp →
    (s.session a).opened.length ≤ 1 → (∀ e ∈ (s.session a).opened, e.seq = q ∧ e.violated = false) →
    ∃ (t u v : State) (w w' : Word16), step s = .next t ∧ step t = .next u ∧ step u = .next v ∧
      Assoc.get m t.results = some (busRead w) ∧ Assoc.get n v.results = some (busRead w') ∧
      (w' = w ∨ (d.configKnown = false ∧ Config.powerUpContinuous a = true)) ∧
      (d.conversionContents = .held → w = d.conversion) ∧
      (d.conversionContents = .powerUp →
        w = Config.powerUpConversion a ∨
          (d.configKnown = false ∧ Config.powerUpContinuous a = true)) ∧
      (v.session a).device = d

/-- R205, R213, R217 (D20; log 13, log 31): after a failed Configuration write the contents are unknown and
no conversion may be relied on, TransportError is reported, its sequence is in Idle and nothing more of it is
issued, and every sequence of another number that is open stays so and is violated; from then on, whatever
the requester does (further reads, waits, requests, failed transfers, cancellations, actions at other
addresses), a completed read of either register is a free draw until a write at this address completes. -/
def Obligations.FailedWriteLosesTheContents : Prop :=
  ∀ (s : State) (a : BitVec 7) (q : Option Nat) (m : Nat) (msb lsb : Byte) (rest : List Action),
    nextAct s a q (configWrite m msb lsb false) rest →
    ∃ t, step s = .next t ∧
      Assoc.get m t.results = some (.fault .transportError) ∧
      (∀ k, k ≠ m → Assoc.get k t.results = Assoc.get k s.results) ∧
      Result.code (.fault .transportError) = 5 ∧
      (t.session a).phase q = none ∧
      (∀ e ∈ (t.session a).opened, e.violated = true) ∧
      (∀ e ∈ (s.session a).opened, e.seq ≠ q → Sequence.marked e ∈ (t.session a).opened) ∧
      (∀ f, (t.session a).device.flight = some f → f.determinate = false) ∧
      (∀ b, b ≠ a → t.session b = s.session b) ∧ t.pending = dropSequence a q rest ∧
      t.now = s.now ∧ t.draws = s.draws ∧ t.result = s.result ∧
      ∀ (acts : List Action) (u : State) (p : Option Nat) (n : Nat) (act : Act) (more : List Action),
        ReachedWithoutWrite a { t with pending := acts } u → nextAct u a p act more →
        act = configRead n ∨ act = conversionRead n →
        ∃ v, step u = .next v ∧ Assoc.get n v.results = some (busRead (Config.freeWord u.draws))

/-- R213, R217, R176 (D11; log 15, log 30, log 31): a failed read of either register is reported as
TransportError, ends its sequence in Idle, and leaves the device as it was. A failed conversion read keeps
the open sequences of other numbers and violates every open one (R211); a failed Configuration read leaves
those of other numbers as they are. -/
def Obligations.FailedReadLeavesTheDevice : Prop :=
  ∀ (s : State) (a : BitVec 7) (q : Option Nat) (n : Nat) (pointer : Byte) (rest : List Action),
    nextAct s a q (.writeThenRead (some n) (.lit [pointer]) (.lit 2) false) rest → pointer.toNat ≤ 1 →
    ∃ t, step s = .next t ∧
      Assoc.get n t.results = some (.fault .transportError) ∧
      (∀ m, m ≠ n → Assoc.get m t.results = Assoc.get m s.results) ∧
      (t.session a).phase q = none ∧
      (pointer = 0 → (∀ e ∈ (t.session a).opened, e.violated = true) ∧
        ∀ e ∈ (s.session a).opened, e.seq ≠ q → Sequence.marked e ∈ (t.session a).opened) ∧
      (pointer = 1 → ∀ e, e.seq ≠ q → (e ∈ (t.session a).sequences ↔ e ∈ (s.session a).sequences)) ∧
      (t.session a).device = (s.session a).device ∧
      (∀ b, b ≠ a → t.session b = s.session b) ∧ t.pending = dropSequence a q rest ∧
      t.now = s.now ∧ t.draws = s.draws ∧ t.result = s.result

/-- R213, R217 (log 21, log 31): a failed transfer, a FAULT of a block request and a cancellation return the
sequence they are part of to Idle and end it: none of its actions is issued any more, and every other action
stays, in its order. That the actions of a session without a number count as one sequence, that such an
action's end so takes every sequence there without a number to Idle, and that it takes nothing off the list, is
the model's choice (log 31). -/
def Obligations.EndedSequencesIssueNothingMore : Prop :=
  ∀ (s t : State) (x : Action) (rest : List Action),
    s.pending = x :: rest → step s = .next t →
    ((∃ dst arg, x.act = .write dst arg false) ∨
      (∃ dst arg len, x.act = .writeThenRead dst arg len false) ∨ (∃ dst, x.act = .cancel dst) ∨
      (((∃ dst r, x.act = .request dst r) ∨ (∃ dst l, x.act = .line dst l)) ∧
        ∃ f, t.result = some (.fault f)) →
      (t.session x.addr).phase x.seq = none ∧ t.pending.Sublist rest ∧
      ∀ k, x.seq = some k →
        ∀ y, y ∈ t.pending ↔ y ∈ rest ∧ ¬ (y.addr = x.addr ∧ y.seq = some k)) ∧
    (x.seq = none → t.pending = rest)

/-- R25, R80 (GK3, GK7; log 9): reading the Configuration register back gives every field but OS as it was
written. OS is 0 in continuous mode, and in single-shot mode within the conversion time 1/DR of a conversion
in flight (U16); it is 1 in single-shot mode when none is in flight. -/
def Obligations.ReadBackReturnsWrittenFields : Prop :=
  ∀ (s : State) (a : BitVec 7) (q : Option Nat) (n : Nat) (rest : List Action) (d : Device),
    nextAct s a q (configRead n) rest → (s.session a).device.configKnown = true →
    Device.settle s.now (s.session a).device = d →
    ∃ (t : State) (w : Word16), step s = .next t ∧ Assoc.get n t.results = some (busRead w) ∧
      (∀ m, m ≠ n → Assoc.get m t.results = Assoc.get m s.results) ∧
      (∀ i, i < 15 → w.getLsbD i = (s.session a).device.config.getLsbD i) ∧
      (isContinuous d.config = true → w.getLsbD 15 = false) ∧
      (isContinuous d.config = false → d.flight = none → w.getLsbD 15 = true) ∧
      (∀ f, d.flight = some f → s.now < f.busyUntil → w.getLsbD 15 = false) ∧
      (∀ b, t.session b = s.session b) ∧ t.now = s.now ∧ t.result = s.result ∧
      t.draws = s.draws + 1 ∧ t.pending = rest

/-- R214, R176 (D11, D19; log 22, log 31): a cancellation is reported as Cancelled, ends its sequence in Idle
and none of another number, and leaves the device, with its conversion in flight, as it was. -/
def Obligations.CancelLeavesTheDeviceAlone : Prop :=
  ∀ (s : State) (a : BitVec 7) (q : Option Nat) (n : Nat) (rest : List Action),
    nextAct s a q (.cancel (some n)) rest →
    ∃ t, step s = .next t ∧ Assoc.get n t.results = some (.fault .cancelled) ∧
      (∀ m, m ≠ n → Assoc.get m t.results = Assoc.get m s.results) ∧
      Result.code (.fault .cancelled) = 6 ∧
      (t.session a).phase q = none ∧
      (∀ e, e.seq ≠ q → (e ∈ (t.session a).sequences ↔ e ∈ (s.session a).sequences)) ∧
      (t.session a).device = (s.session a).device ∧
      (∀ b, b ≠ a → t.session b = s.session b) ∧ t.pending = dropSequence a q rest ∧
      t.now = s.now ∧ t.draws = s.draws ∧ t.result = s.result

/-- R52, R28, R57 (D15, D16; U7, U8, U9, U11): the accesses that have no behaviour are refused, each by
its name. -/
def Obligations.UnspecifiedAccessesAreRefused : Prop :=
  ∀ (s : State) (a : BitVec 7) (q dst : Option Nat) (pointer : Byte) (data : List Byte) (len : Int)
    (ok : Bool) (rest : List Action),
    (nextAct s a q (.write dst (.lit (pointer :: data)) ok) rest ∨
      nextAct s a q (.writeThenRead dst (.lit (pointer :: data)) (.lit len) ok) rest →
      (pointer = 2 ∨ pointer = 3 → step s = .refused (.uncoveredRegister pointer)) ∧
      (4 ≤ pointer.toNat → step s = .refused (.notAnAddress pointer))) ∧
    (nextAct s a q (.write dst (.lit (pointer :: data)) ok) rest →
      (pointer = 0 → data ≠ [] → step s = .refused .writeToConversion) ∧
      (pointer = 1 → data.length ≠ 2 → step s = .refused .transferLength)) ∧
    (nextAct s a q (.writeThenRead dst (.lit (pointer :: data)) (.lit len) ok) rest →
      pointer.toNat ≤ 1 → data ≠ [] ∨ len ≠ 2 → step s = .refused .transferLength)

/-- R181, R218, R217 (log 21, log 28): only a wait lets time pass; a wait changes no device, no result and no
draw, takes its own sequence from ConfigWritten to Waiting, leaves every sequence of another number as it is, and begins, ends
and violates none. That of several sequences of its number it takes every one is the model's choice (log 21). -/
def Obligations.OnlyWaitsTakeTime : Prop :=
  ∀ (s t : State) (x : Action) (rest : List Action),
    s.pending = x :: rest → step s = .next t →
    ((∃ ticks, x.act = .wait ticks ∧ t.now = s.now + ticks ∧
        (∀ b, (t.session b).device = (s.session b).device) ∧
        ((s.session x.addr).phase x.seq = some .configWritten →
          (t.session x.addr).phase x.seq = some .waiting) ∧
        ((s.session x.addr).phase x.seq ≠ some .configWritten →
          (t.session x.addr).phase x.seq = (s.session x.addr).phase x.seq) ∧
        (∀ e ∈ (t.session x.addr).sequences, e.seq = x.seq → e.phase ≠ .configWritten) ∧
        (∀ e, e.seq ≠ x.seq →
          (e ∈ (t.session x.addr).sequences ↔ e ∈ (s.session x.addr).sequences)) ∧
        (t.session x.addr).sequences.map (fun e => (e.seq, e.collected, e.violated)) =
          (s.session x.addr).sequences.map (fun e => (e.seq, e.collected, e.violated)) ∧
        (∀ b, b ≠ x.addr → t.session b = s.session b) ∧
        t.results = s.results ∧ t.result = s.result ∧ t.draws = s.draws ∧ t.pending = rest) ∨
      ((∀ ticks, x.act ≠ .wait ticks) ∧ t.now = s.now))

/-- R84 (GK11; log 6, log 10): the data rate of each DR code; every nominal conversion time is exact in
ticks, and the reference delay of 250 ms covers every data rate with a margin of 125 ms (R210). -/
def Obligations.ConversionTimesAreExact : Prop :=
  ∀ dr : BitVec 3,
    [8, 16, 32, 64, 128, 250, 475, 860][dr.toNat]? = some (samplesPerSecond dr) ∧
    conversionTicks dr * samplesPerSecond dr = ticksPerSecond ∧
    1000 * conversionTicks dr + 125 * ticksPerSecond ≤ 250 * ticksPerSecond

/-- R89, R81 (GK8, D6): the code of each label selects the pins the label names. -/
def Obligations.LabelsSelectTheirPins : Prop :=
  channelLabels.map (fun l => (channelCode l).map muxSelection) =
    [some ⟨.ain0, some .ain1⟩, some ⟨.ain0, some .ain3⟩, some ⟨.ain1, some .ain3⟩,
     some ⟨.ain2, some .ain3⟩, some ⟨.ain0, none⟩, some ⟨.ain1, none⟩,
     some ⟨.ain2, none⟩, some ⟨.ain3, none⟩]

/-- R27, R28, R29, R202 (general knowledge, PRESUMED, log 7): the register values of a device nothing
has touched; R205: its Configuration and Conversion registers are not to be relied on. -/
def Obligations.PowerUpRegisterValues : Prop :=
  ∀ a : BitVec 7,
    (State.reset.session a).device.config = 0x8583 ∧
    (State.reset.session a).device.conversion = 0x0000 ∧
    (State.reset.session a).device.loThreshold = 0x8000 ∧
    (State.reset.session a).device.hiThreshold = 0x7FFF ∧
    (State.reset.session a).device.configKnown = false ∧
    (State.reset.session a).device.conversionContents = .powerUp ∧
    (State.reset.session a).device.flight = none ∧
    unpack (msbOf (State.reset.session a).device.config) (lsbOf (State.reset.session a).device.config) =
      ⟨1, 0, 2, 1, 4, 0, 0, 0, 3⟩

/-- R7, R71 (D4): every legal code of every field can stand on a hardware port of W_IN bits. -/
def Obligations.LegalCodesFitHardwarePorts : Prop :=
  ∀ v : Field → Nat, InRange v → Request.fitsPorts Config.wIn (encode (encOf v)) = true
end

