-- ==== Sys2Proof/Laws/State.lean ====
section
/-! SUPPORT. One lemma for each field under each update of State, so that no later proof unfolds a
record update. -/

namespace Sys2Proof.Machine

@[simp] theorem State.setResult_pending (r : Result) (s : State) :
    (s.setResult r).pending = s.pending := rfl

@[simp] theorem State.setResult_result (r : Result) (s : State) :
    (s.setResult r).result = some r := rfl

@[simp] theorem State.setResult_results (r : Result) (s : State) :
    (s.setResult r).results = s.results := rfl

@[simp] theorem State.setResult_sessions (r : Result) (s : State) :
    (s.setResult r).sessions = s.sessions := rfl

@[simp] theorem State.setResult_now (r : Result) (s : State) :
    (s.setResult r).now = s.now := rfl

@[simp] theorem State.setResult_draws (r : Result) (s : State) :
    (s.setResult r).draws = s.draws := rfl

@[simp] theorem State.drawn_pending (s : State) :
    (s.drawn).pending = s.pending := rfl

@[simp] theorem State.drawn_result (s : State) :
    (s.drawn).result = s.result := rfl

@[simp] theorem State.drawn_results (s : State) :
    (s.drawn).results = s.results := rfl

@[simp] theorem State.drawn_sessions (s : State) :
    (s.drawn).sessions = s.sessions := rfl

@[simp] theorem State.drawn_now (s : State) :
    (s.drawn).now = s.now := rfl

@[simp] theorem State.drawn_draws (s : State) :
    (s.drawn).draws = s.draws + 1 := rfl

@[simp] theorem State.withRequest_pending (r : Request) (s : State) :
    (s.withRequest r).pending = { addr := 0, act := .request none r } :: s.pending := rfl

@[simp] theorem State.withRequest_result (r : Request) (s : State) :
    (s.withRequest r).result = s.result := rfl

@[simp] theorem State.withRequest_results (r : Request) (s : State) :
    (s.withRequest r).results = s.results := rfl

@[simp] theorem State.withRequest_sessions (r : Request) (s : State) :
    (s.withRequest r).sessions = s.sessions := rfl

@[simp] theorem State.withRequest_now (r : Request) (s : State) :
    (s.withRequest r).now = s.now := rfl

@[simp] theorem State.withRequest_draws (r : Request) (s : State) :
    (s.withRequest r).draws = s.draws := rfl

@[simp] theorem State.setSession_pending (a : BitVec 7) (x : Session) (s : State) :
    (s.setSession a x).pending = s.pending := rfl

@[simp] theorem State.setSession_result (a : BitVec 7) (x : Session) (s : State) :
    (s.setSession a x).result = s.result := rfl

@[simp] theorem State.setSession_results (a : BitVec 7) (x : Session) (s : State) :
    (s.setSession a x).results = s.results := rfl

@[simp] theorem State.setSession_now (a : BitVec 7) (x : Session) (s : State) :
    (s.setSession a x).now = s.now := rfl

@[simp] theorem State.setSession_draws (a : BitVec 7) (x : Session) (s : State) :
    (s.setSession a x).draws = s.draws := rfl

theorem State.setSession_sessions (a : BitVec 7) (x : Session) (s : State) :
    (s.setSession a x).sessions =
      if x = Session.powerUp then Assoc.erase a.toNat s.sessions
      else Assoc.put a.toNat x s.sessions := rfl

@[simp] theorem State.record_pending (dst : Option Nat) (r : Result) (s : State) :
    (s.record dst r).pending = s.pending := by cases dst <;> rfl

@[simp] theorem State.record_result (dst : Option Nat) (r : Result) (s : State) :
    (s.record dst r).result = s.result := by cases dst <;> rfl

@[simp] theorem State.record_sessions (dst : Option Nat) (r : Result) (s : State) :
    (s.record dst r).sessions = s.sessions := by cases dst <;> rfl

@[simp] theorem State.record_now (dst : Option Nat) (r : Result) (s : State) :
    (s.record dst r).now = s.now := by cases dst <;> rfl

@[simp] theorem State.record_draws (dst : Option Nat) (r : Result) (s : State) :
    (s.record dst r).draws = s.draws := by cases dst <;> rfl

@[simp] theorem State.record_none_results (r : Result) (s : State) :
    (s.record none r).results = s.results := rfl

@[simp] theorem State.record_some_results (n : Nat) (r : Result) (s : State) :
    (s.record (some n) r).results = Assoc.put n r s.results := rfl

@[simp] theorem State.setSequences_pending (a : BitVec 7) (l : List Sequence) (s : State) :
    (s.setSequences a l).pending = s.pending := rfl

@[simp] theorem State.setSequences_result (a : BitVec 7) (l : List Sequence) (s : State) :
    (s.setSequences a l).result = s.result := rfl

@[simp] theorem State.setSequences_results (a : BitVec 7) (l : List Sequence) (s : State) :
    (s.setSequences a l).results = s.results := rfl

@[simp] theorem State.setSequences_now (a : BitVec 7) (l : List Sequence) (s : State) :
    (s.setSequences a l).now = s.now := rfl

@[simp] theorem State.setSequences_draws (a : BitVec 7) (l : List Sequence) (s : State) :
    (s.setSequences a l).draws = s.draws := rfl

@[simp] theorem State.withPending_pending (rest : List Action) (s : State) :
    (s.withPending rest).pending = rest := rfl

@[simp] theorem State.withPending_result (rest : List Action) (s : State) :
    (s.withPending rest).result = s.result := rfl

@[simp] theorem State.withPending_results (rest : List Action) (s : State) :
    (s.withPending rest).results = s.results := rfl

@[simp] theorem State.withPending_sessions (rest : List Action) (s : State) :
    (s.withPending rest).sessions = s.sessions := rfl

@[simp] theorem State.withPending_now (rest : List Action) (s : State) :
    (s.withPending rest).now = s.now := rfl

@[simp] theorem State.withPending_draws (rest : List Action) (s : State) :
    (s.withPending rest).draws = s.draws := rfl

@[simp] theorem State.elapse_pending (ticks : Nat) (s : State) :
    (s.elapse ticks).pending = s.pending := rfl

@[simp] theorem State.elapse_result (ticks : Nat) (s : State) :
    (s.elapse ticks).result = s.result := rfl

@[simp] theorem State.elapse_results (ticks : Nat) (s : State) :
    (s.elapse ticks).results = s.results := rfl

@[simp] theorem State.elapse_sessions (ticks : Nat) (s : State) :
    (s.elapse ticks).sessions = s.sessions := rfl

@[simp] theorem State.elapse_now (ticks : Nat) (s : State) :
    (s.elapse ticks).now = s.now + ticks := rfl

@[simp] theorem State.elapse_draws (ticks : Nat) (s : State) :
    (s.elapse ticks).draws = s.draws := rfl

@[simp] theorem State.endSequence_pending (a : BitVec 7) (q : Option Nat) (s : State) :
    (s.endSequence a q).pending = dropSequence a q s.pending := rfl

@[simp] theorem State.endSequence_result (a : BitVec 7) (q : Option Nat) (s : State) :
    (s.endSequence a q).result = s.result := rfl

@[simp] theorem State.endSequence_results (a : BitVec 7) (q : Option Nat) (s : State) :
    (s.endSequence a q).results = s.results := rfl

@[simp] theorem State.endSequence_sessions (a : BitVec 7) (q : Option Nat) (s : State) :
    (s.endSequence a q).sessions = s.sessions := rfl

@[simp] theorem State.endSequence_now (a : BitVec 7) (q : Option Nat) (s : State) :
    (s.endSequence a q).now = s.now := rfl

@[simp] theorem State.endSequence_draws (a : BitVec 7) (q : Option Nat) (s : State) :
    (s.endSequence a q).draws = s.draws := rfl

@[simp] theorem State.report_ok (a : BitVec 7) (q dst : Option Nat) (o : Outputs) (s : State) :
    s.report a q dst (.ok o) = s.record dst (.ok o) := rfl

@[simp] theorem State.report_fault_pending (a : BitVec 7) (q dst : Option Nat) (f : BlockFault)
    (s : State) : (s.report a q dst (.fault f)).pending = dropSequence a q s.pending := by
  cases dst <;> rfl

@[simp] theorem State.report_result (a : BitVec 7) (q dst : Option Nat) (r : Result) (s : State) :
    (s.report a q dst r).result = s.result := by cases r <;> cases dst <;> rfl

@[simp] theorem State.report_results (a : BitVec 7) (q dst : Option Nat) (r : Result) (s : State) :
    (s.report a q dst r).results = (s.record dst r).results := by cases r <;> cases dst <;> rfl

@[simp] theorem State.report_sessions (a : BitVec 7) (q dst : Option Nat) (r : Result) (s : State) :
    (s.report a q dst r).sessions = s.sessions := by cases r <;> cases dst <;> rfl

@[simp] theorem State.report_now (a : BitVec 7) (q dst : Option Nat) (r : Result) (s : State) :
    (s.report a q dst r).now = s.now := by cases r <;> cases dst <;> rfl

@[simp] theorem State.report_draws (a : BitVec 7) (q dst : Option Nat) (r : Result) (s : State) :
    (s.report a q dst r).draws = s.draws := by cases r <;> cases dst <;> rfl

@[simp] theorem dropSequence_none (a : BitVec 7) (acts : List Action) :
    dropSequence a none acts = acts := rfl

/-- What is left of the list after a sequence has ended: everything that is not part of it. -/
theorem mem_dropSequence {a : BitVec 7} {k : Nat} {acts : List Action} {x : Action} :
    x ∈ dropSequence a (some k) acts ↔ x ∈ acts ∧ ¬ (x.addr = a ∧ x.seq = some k) := by
  simp [dropSequence, imp_iff_not_or]

/-- The session view depends on the list of sessions alone. -/
theorem State.session_congr {s t : State} (h : t.sessions = s.sessions) (a : BitVec 7) :
    t.session a = s.session a := by simp only [State.session, h]

@[simp] theorem State.session_setResult (r : Result) (s : State) (a : BitVec 7) :
    (s.setResult r).session a = s.session a := rfl

@[simp] theorem State.session_withPending (rest : List Action) (s : State) (a : BitVec 7) :
    (s.withPending rest).session a = s.session a := rfl

@[simp] theorem State.session_elapse (ticks : Nat) (s : State) (a : BitVec 7) :
    (s.elapse ticks).session a = s.session a := rfl

@[simp] theorem State.session_drawn (s : State) (a : BitVec 7) :
    s.drawn.session a = s.session a := rfl

@[simp] theorem State.session_record (dst : Option Nat) (r : Result) (s : State) (a : BitVec 7) :
    (s.record dst r).session a = s.session a :=
  State.session_congr (State.record_sessions dst r s) a

@[simp] theorem State.session_report (b : BitVec 7) (q dst : Option Nat) (r : Result) (s : State)
    (a : BitVec 7) : (s.report b q dst r).session a = s.session a :=
  State.session_congr (State.report_sessions b q dst r s) a

end Sys2Proof.Machine
end

