-- ==== Sys2Proof/Laws/Assoc.lean ====
section
/-! SUPPORT. Keyed lists: reading after a write, and the canonical form that every write keeps. -/

namespace Sys2Proof.Machine

variable {α : Type}

@[simp] theorem Assoc.get_put_same (k : Nat) (v : α) (l : List (Nat × α)) :
    Assoc.get k (Assoc.put k v l) = some v := by
  induction l with
  | nil => simp [Assoc.put, Assoc.get]
  | cons e t ih =>
    obtain ⟨j, w⟩ := e
    simp only [Assoc.put]
    split
    · simp [Assoc.get]
    · split
      · simp [Assoc.get]
      · have : j ≠ k := by omega
        simp [Assoc.get, this, ih]

theorem Assoc.get_put_other {k k' : Nat} (h : k' ≠ k) (v : α) (l : List (Nat × α)) :
    Assoc.get k' (Assoc.put k v l) = Assoc.get k' l := by
  have h' : k ≠ k' := fun e => h e.symm
  induction l with
  | nil => simp [Assoc.put, Assoc.get, h']
  | cons e t ih =>
    obtain ⟨j, w⟩ := e
    simp only [Assoc.put]
    split
    · simp [Assoc.get, h']
    · split
      · next hk => subst hk; simp [Assoc.get, h']
      · simp [Assoc.get, ih]

@[simp] theorem Assoc.get_erase_same (k : Nat) (l : List (Nat × α)) :
    Assoc.get k (Assoc.erase k l) = none := by
  induction l with
  | nil => rfl
  | cons e t ih =>
    obtain ⟨j, w⟩ := e
    simp only [Assoc.erase]
    split
    · exact ih
    · next hj => simp [Assoc.get, hj, ih]

theorem Assoc.get_erase_other {k k' : Nat} (h : k' ≠ k) (l : List (Nat × α)) :
    Assoc.get k' (Assoc.erase k l) = Assoc.get k' l := by
  have h' : k ≠ k' := fun e => h e.symm
  induction l with
  | nil => rfl
  | cons e t ih =>
    obtain ⟨j, w⟩ := e
    simp only [Assoc.erase]
    split
    · next hj => subst hj; simp [Assoc.get, h', ih]
    · simp [Assoc.get, ih]

/-- What holds of every entry after a `put` holds of the new one and of the old ones. -/
theorem Assoc.all_put {p : Nat × α → Bool} {k : Nat} {v : α} {l : List (Nat × α)}
    (hv : p (k, v) = true) (hl : l.all p = true) : (Assoc.put k v l).all p = true := by
  induction l with
  | nil => simp [Assoc.put, hv]
  | cons e t ih =>
    obtain ⟨j, w⟩ := e
    simp only [List.all_cons, Bool.and_eq_true] at hl
    simp only [Assoc.put]
    split
    · simp [hv, hl.1, hl.2]
    · split
      · simp [hv, hl.2]
      · simp [hl.1, ih hl.2]

theorem Assoc.all_erase {p : Nat × α → Bool} {k : Nat} {l : List (Nat × α)}
    (hl : l.all p = true) : (Assoc.erase k l).all p = true := by
  induction l with
  | nil => rfl
  | cons e t ih =>
    obtain ⟨j, w⟩ := e
    simp only [List.all_cons, Bool.and_eq_true] at hl
    simp only [Assoc.erase]
    split
    · exact ih hl.2
    · simp [hl.1, ih hl.2]

/-- An entry that is found is one of the list's. -/
theorem Assoc.of_get {p : Nat × α → Bool} {k : Nat} {v : α} {l : List (Nat × α)}
    (hl : l.all p = true) (h : Assoc.get k l = some v) : p (k, v) = true := by
  induction l with
  | nil => simp [Assoc.get] at h
  | cons e t ih =>
    obtain ⟨j, w⟩ := e
    simp only [List.all_cons, Bool.and_eq_true] at hl
    simp only [Assoc.get] at h
    split at h
    · next hj => subst hj; cases h; exact hl.1
    · exact ih hl.2 h

theorem Assoc.rising_put (k : Nat) (v : α) {l : List (Nat × α)} (hl : Assoc.rising l = true) :
    Assoc.rising (Assoc.put k v l) = true := by
  induction l with
  | nil => simp [Assoc.put, Assoc.rising]
  | cons e t ih =>
    obtain ⟨j, w⟩ := e
    simp only [Assoc.rising, Bool.and_eq_true] at hl
    simp only [Assoc.put]
    split
    · next hk =>
      simp only [Assoc.rising, List.all_cons, Bool.and_eq_true, decide_eq_true_eq]
      refine ⟨⟨hk, ?_⟩, hl⟩
      refine List.all_eq_true.2 fun e he => ?_
      have := List.all_eq_true.1 hl.1 e he
      simp only [decide_eq_true_eq] at this ⊢
      omega
    · split
      · next _ hj => subst hj; simpa [Assoc.rising] using hl
      · simp only [Assoc.rising, Bool.and_eq_true]
        refine ⟨Assoc.all_put ?_ hl.1, ih hl.2⟩
        simp only [decide_eq_true_eq]
        omega

theorem Assoc.rising_erase (k : Nat) {l : List (Nat × α)} (hl : Assoc.rising l = true) :
    Assoc.rising (Assoc.erase k l) = true := by
  induction l with
  | nil => rfl
  | cons e t ih =>
    obtain ⟨j, w⟩ := e
    simp only [Assoc.rising, Bool.and_eq_true] at hl
    simp only [Assoc.erase]
    split
    · exact ih hl.2
    · simp only [Assoc.rising, Bool.and_eq_true]
      exact ⟨Assoc.all_erase hl.1, ih hl.2⟩

/-- A name that is recorded can be read back. -/
@[simp] theorem State.record_get_same (n : Nat) (r : Result) (s : State) :
    Assoc.get n (s.record (some n) r).results = some r := by simp

@[simp] theorem State.session_setSession_same (a : BitVec 7) (x : Session) (s : State) :
    (s.setSession a x).session a = x := by
  simp only [State.session, State.setSession_sessions]
  split
  · next h => simp [h]
  · simp

/-- Sessions at other addresses do not change (70_reset_and_hazards.md R212). -/
theorem State.session_setSession_other {a b : BitVec 7} (h : b ≠ a) (x : Session) (s : State) :
    (s.setSession a x).session b = s.session b := by
  have hn : b.toNat ≠ a.toNat := fun e => h (BitVec.eq_of_toNat_eq e)
  simp only [State.session, State.setSession_sessions]
  split
  · rw [Assoc.get_erase_other hn]
  · rw [Assoc.get_put_other hn]

@[simp] theorem State.session_setSequences_same (a : BitVec 7) (l : List Sequence) (s : State) :
    (s.setSequences a l).session a = { device := (s.session a).device, sequences := l } := by
  simp [State.setSequences]

/-- Moving a session's sequences touches no other session (R217). -/
theorem State.session_setSequences_other {a b : BitVec 7} (h : b ≠ a) (l : List Sequence) (s : State) :
    (s.setSequences a l).session b = s.session b :=
  State.session_setSession_other h _ s

/-- Moving a session's sequences touches no device (R217). -/
@[simp] theorem State.device_setSequences (a b : BitVec 7) (l : List Sequence) (s : State) :
    ((s.setSequences a l).session b).device = (s.session b).device := by
  by_cases h : b = a
  · subst h; simp
  · rw [State.session_setSequences_other h]

/-- What every listed session has, the session at an address has, if an untouched one has it. -/
theorem State.session_of_all {p : Session → Bool} {s : State}
    (h0 : p Session.powerUp = true) (h : s.sessions.all (fun e => p e.2) = true) (a : BitVec 7) :
    p (s.session a) = true := by
  simp only [State.session]
  cases hg : Assoc.get a.toNat s.sessions with
  | none => simpa using h0
  | some x => exact Assoc.of_get (p := fun e => p e.2) h hg

/-- Setting a session keeps what every session has. -/
theorem State.setSession_all {p : Nat × Session → Bool} {s : State} {a : BitVec 7} {x : Session}
    (hx : x ≠ Session.powerUp → p (a.toNat, x) = true) (h : s.sessions.all p = true) :
    (s.setSession a x).sessions.all p = true := by
  rw [State.setSession_sessions]
  split
  · exact Assoc.all_erase h
  · next hne => exact Assoc.all_put (hx hne) h

theorem State.setSession_rising {s : State} (a : BitVec 7) (x : Session)
    (h : Assoc.rising s.sessions = true) : Assoc.rising (s.setSession a x).sessions = true := by
  rw [State.setSession_sessions]
  split
  · exact Assoc.rising_erase _ h
  · exact Assoc.rising_put _ _ h

/-- A report reaches no result of another name. -/
theorem State.report_results_other {m n : Nat} (h : m ≠ n) (a : BitVec 7) (q : Option Nat) (r : Result)
    (s : State) : Assoc.get m (s.report a q (some n) r).results = Assoc.get m s.results := by
  rw [State.report_results]; exact Assoc.get_put_other h _ _

end Sys2Proof.Machine
end

