-- ==== Sys2Proof/Laws/Codec.lean ====
section
/-! SUPPORT. The Configuration word as arithmetic: packing, unpacking, the byte order of a word, and
ENC's range check. -/

namespace Sys2Proof.Machine

/-- The MSB byte of in-range values, as a sum (30_encoding.md R76). -/
theorem packMsb_toNat {os mux pga mode : Nat} (ho : os < 2) (hx : mux < 8) (hp : pga < 8)
    (hm : mode < 2) :
    (packMsb os mux pga mode).toNat = 128 * os + 16 * mux + 2 * pga + mode := by
  have h : ∀ a : Fin 2, ∀ b c : Fin 8, ∀ d : Fin 2,
      (packMsb a b c d).toNat = 128 * a.val + 16 * b.val + 2 * c.val + d.val := by decide
  exact h ⟨os, ho⟩ ⟨mux, hx⟩ ⟨pga, hp⟩ ⟨mode, hm⟩

/-- The LSB byte of in-range values, as a sum (30_encoding.md R76). -/
theorem packLsb_toNat {dr cmode cpol clat cque : Nat} (hd : dr < 8) (hm : cmode < 2) (hp : cpol < 2)
    (hl : clat < 2) (hq : cque < 4) :
    (packLsb dr cmode cpol clat cque).toNat =
      32 * dr + 16 * cmode + 8 * cpol + 4 * clat + cque := by
  have h : ∀ a : Fin 8, ∀ b c d : Fin 2, ∀ e : Fin 4,
      (packLsb a b c d e).toNat =
        32 * a.val + 16 * b.val + 8 * c.val + 4 * d.val + e.val := by decide
  exact h ⟨dr, hd⟩ ⟨cmode, hm⟩ ⟨cpol, hp⟩ ⟨clat, hl⟩ ⟨cque, hq⟩

/-- Each field DECF returns, as arithmetic on its byte (40_config_codec.md R115). -/
theorem unpack_toNat (msb lsb : Byte) :
    (unpack msb lsb).os.toNat = msb.toNat / 128 ∧
    (unpack msb lsb).mux.toNat = msb.toNat / 16 % 8 ∧
    (unpack msb lsb).pga.toNat = msb.toNat / 2 % 8 ∧
    (unpack msb lsb).mode.toNat = msb.toNat % 2 ∧
    (unpack msb lsb).dr.toNat = lsb.toNat / 32 ∧
    (unpack msb lsb).cmode.toNat = lsb.toNat / 16 % 2 ∧
    (unpack msb lsb).cpol.toNat = lsb.toNat / 8 % 2 ∧
    (unpack msb lsb).clat.toNat = lsb.toNat / 4 % 2 ∧
    (unpack msb lsb).cque.toNat = lsb.toNat % 4 := by
  have hm := msb.isLt
  have hl := lsb.isLt
  simp only [unpack, BitVec.extractLsb'_toNat, Nat.shiftRight_eq_div_pow]
  refine ⟨?_, ?_, ?_, ?_, ?_, ?_, ?_, ?_, ?_⟩ <;> norm_num <;> omega

@[simp] theorem word16_toNat (high low : Byte) :
    (word16 high low).toNat = 256 * high.toNat + low.toNat := by
  have h : (high ++ low).toNat = high.toNat <<< 8 ||| low.toNat := BitVec.toNat_append ..
  rw [word16, h, Nat.shiftLeft_eq, Nat.mul_comm, ← Nat.two_pow_add_eq_or_of_lt low.isLt]

@[simp] theorem msbOf_toNat (w : Word16) : (msbOf w).toNat = w.toNat / 256 := by
  have := w.isLt
  simp only [msbOf, BitVec.extractLsb'_toNat, Nat.shiftRight_eq_div_pow]
  omega

@[simp] theorem lsbOf_toNat (w : Word16) : (lsbOf w).toNat = w.toNat % 256 := by
  simp only [lsbOf, BitVec.extractLsb'_toNat, Nat.shiftRight_eq_div_pow]
  omega

@[simp] theorem msbOf_word16 (high low : Byte) : msbOf (word16 high low) = high := by
  have := low.isLt
  apply BitVec.eq_of_toNat_eq
  simp only [msbOf_toNat, word16_toNat]
  omega

@[simp] theorem lsbOf_word16 (high low : Byte) : lsbOf (word16 high low) = low := by
  have := low.isLt
  apply BitVec.eq_of_toNat_eq
  simp only [lsbOf_toNat, word16_toNat]
  omega

@[simp] theorem word16_of_halves (w : Word16) : word16 (msbOf w) (lsbOf w) = w := by
  apply BitVec.eq_of_toNat_eq
  simp only [word16_toNat, msbOf_toNat, lsbOf_toNat]
  omega

/-- Only bit 15 of the word is replaced. -/
theorem withOs_getLsbD (os : BitVec 1) (w : Word16) {i : Nat} (hi : i < 15) :
    (withOs os w).getLsbD i = w.getLsbD i := by
  have h : (os ++ w.extractLsb' 0 15).getLsbD i = _ := BitVec.getLsbD_append
  rw [withOs, h]
  simp [hi]

theorem withOs_bit15 (os : BitVec 1) (w : Word16) :
    (withOs os w).getLsbD 15 = os.getLsbD 0 := by
  have h : (os ++ w.extractLsb' 0 15).getLsbD 15 = _ := BitVec.getLsbD_append
  rw [withOs, h]
  simp

/-- The check passes exactly when every value fits its field (40_config_codec.md R112). -/
theorem firstOutOfRange_eq_none {l : List (Field × Nat)} :
    firstOutOfRange l = none ↔ ∀ e ∈ l, e.2 < 2 ^ Field.width e.1 := by
  induction l with
  | nil => simp [firstOutOfRange]
  | cons e t ih =>
    obtain ⟨f, v⟩ := e
    simp only [firstOutOfRange]
    split
    · next h => simp; omega
    · next h => simp [ih]; omega

/-- A field the check reports is one of the list's, and its value is too wide. -/
theorem firstOutOfRange_mem {l : List (Field × Nat)} {f : Field} (h : firstOutOfRange l = some f) :
    ∃ v, (f, v) ∈ l ∧ 2 ^ Field.width f ≤ v := by
  induction l with
  | nil => simp [firstOutOfRange] at h
  | cons e t ih =>
    obtain ⟨g, v⟩ := e
    simp only [firstOutOfRange] at h
    split at h
    · next hv => cases h; exact ⟨v, by simp, hv⟩
    · obtain ⟨w, hw, hle⟩ := ih h
      exact ⟨w, by simp [hw], hle⟩

/-- ENC's operands are in range exactly when each is below its field's limit (R112). -/
theorem fieldOperands_inRange {os mux pga mode dr cmode cpol clat cque : Nat} :
    firstOutOfRange (fieldOperands os mux pga mode dr cmode cpol clat cque) = none ↔
      os < 2 ∧ mux < 8 ∧ pga < 8 ∧ mode < 2 ∧ dr < 8 ∧ cmode < 2 ∧ cpol < 2 ∧ clat < 2 ∧ cque < 4 := by
  rw [firstOutOfRange_eq_none]
  simp [fieldOperands, Field.width]

/-- Codes 0 to 5 have the six entries of the GainTable, and the others none (42_gain_scaler.md R140). -/
theorem gainEntry_cases (gain : BitVec 3) :
    (gain.toNat < 6 ∧ ∃ k ∈ [24, 16, 8, 4, 2, 1],
      gainEntry gain = some { fsrMv := 256 * k, lsbPv := 7812500 * k }) ∨
    (6 ≤ gain.toNat ∧ gainEntry gain = none) := by
  revert gain; decide

/-- The product of SCALE is within the bound of 42_gain_scaler.md R151. -/
theorem voltsPv_bound (raw : Word16) {gain : BitVec 3} {e : GainEntry}
    (h : gainEntry gain = some e) : (voltsPv raw e).natAbs ≤ 6144000000000 := by
  have h1 := BitVec.le_toInt raw
  have h2 := BitVec.toInt_lt (x := raw)
  norm_num at h1 h2
  simp only [voltsPv]
  rcases gainEntry_cases gain with ⟨-, k, hk, he⟩ | ⟨-, he⟩
  · rw [he] at h
    cases h
    simp only [List.mem_cons, List.not_mem_nil, or_false] at hk
    rcases hk with rfl | rfl | rfl | rfl | rfl | rfl <;> dsimp only <;> omega
  · rw [he] at h; cases h

/-- The `s64` output holds the product exactly (42_gain_scaler.md R151). -/
theorem voltsPv_toInt (raw : Word16) {gain : BitVec 3} {e : GainEntry}
    (h : gainEntry gain = some e) :
    (BitVec.ofInt 64 (voltsPv raw e)).toInt = voltsPv raw e := by
  have hb := voltsPv_bound raw h
  rw [BitVec.toInt_ofInt]
  simp only [Int.bmod]
  norm_num
  split <;> omega

end Sys2Proof.Machine
end

