-- ==== Sys2Proof/Laws/Block.lean ====
section
/-! SUPPORT. What an operation can do, once for all eight: the spec lemma of each meaning, and the
inversion of `exec`. -/

namespace Sys2Proof.Machine

theorem answer_eq (o : Outputs) (s : State) :
    answer o s = .next { s with result := some (.ok o) } := rfl

theorem raise_eq (f : BlockFault) (s : State) :
    raise f s = .next { s with result := some (.fault f) } := rfl

/-- ENC on in-range operands (40_config_codec.md R110). -/
theorem execEnc_ok {os mux pga mode dr cmode cpol clat cque : Nat}
    (h : firstOutOfRange (fieldOperands os mux pga mode dr cmode cpol clat cque) = none) (s : State) :
    exec (.enc os mux pga mode dr cmode cpol clat cque) s =
      answer (.enc (packMsb os mux pga mode) (packLsb dr cmode cpol clat cque)) s := by
  simp only [exec, execEnc, h]

/-- ENC on an operand that is too wide (R110, R111). -/
theorem execEnc_fault {os mux pga mode dr cmode cpol clat cque : Nat} {f : Field}
    (h : firstOutOfRange (fieldOperands os mux pga mode dr cmode cpol clat cque) = some f) (s : State) :
    exec (.enc os mux pga mode dr cmode cpol clat cque) s = raise (.invalidFieldValue f) s := by
  simp only [exec, execEnc, h]

theorem execDecr_pair (high low : Byte) (s : State) :
    exec (.decr [high, low]) s = answer (.decr (word16 high low)) s := rfl

/-- DECR on a list of another length is refused (41_result_codec.md R130). -/
theorem execDecr_refused {bytes : List Byte} (h : bytes.length ≠ 2) (s : State) :
    exec (.decr bytes) s = .refused (.decrByteCount bytes.length) := by
  rcases bytes with _ | ⟨a, _ | ⟨b, _ | ⟨c, t⟩⟩⟩ <;> first | rfl | exact absurd rfl h

theorem execGainlut_ok {gain : BitVec 3} {e : GainEntry} (h : gainEntry gain = some e) (s : State) :
    exec (.gainlut gain) s =
      answer (.gainlut (BitVec.ofNat 16 e.fsrMv) (BitVec.ofNat 32 e.lsbPv)) s := by
  simp only [exec, execGainlut, h]

theorem execGainlut_fault {gain : BitVec 3} (h : gainEntry gain = none) (s : State) :
    exec (.gainlut gain) s = raise (.unsupportedGainCode gain) s := by
  simp only [exec, execGainlut, h]

theorem execScale_ok {gain : BitVec 3} {e : GainEntry} (h : gainEntry gain = some e) (raw : Word16)
    (s : State) :
    exec (.scale raw gain) s = answer (.scale (BitVec.ofInt 64 (voltsPv raw e))) s := by
  simp only [exec, execScale, h]

theorem execScale_fault {gain : BitVec 3} (h : gainEntry gain = none) (raw : Word16) (s : State) :
    exec (.scale raw gain) s = raise (.unsupportedGainCode gain) s := by
  simp only [exec, execScale, h]

theorem execChsel_ok {label : String} {mux : BitVec 3} (h : channelCode label = some mux)
    (s : State) : exec (.chsel label) s = answer (.chsel mux) s := by
  simp only [exec, execChsel, h]

theorem execChsel_fault {label : String} (h : channelCode label = none) (s : State) :
    exec (.chsel label) s = raise .unknownChannel s := by
  simp only [exec, execChsel, h]

/-- A GainTable entry's two columns fit their output ports (42_gain_scaler.md R140, R141). -/
theorem gainEntry_ports {gain : BitVec 3} {e : GainEntry} (h : gainEntry gain = some e) :
    (BitVec.ofNat 16 e.fsrMv).toNat = e.fsrMv ∧ (BitVec.ofNat 32 e.lsbPv).toNat = e.lsbPv := by
  rcases gainEntry_cases gain with ⟨-, k, hk, he⟩ | ⟨-, he⟩
  · rw [he] at h
    cases h
    simp only [List.mem_cons, List.not_mem_nil, or_false] at hk
    rcases hk with rfl | rfl | rfl | rfl | rfl | rfl <;> decide
  · rw [he] at h; cases h

/-- A looked-up label is a row of the table. -/
theorem mem_of_lookup {l : List (String × BitVec 3)} {label : String} {mux : BitVec 3}
    (h : l.lookup label = some mux) : (label, mux) ∈ l := by
  induction l with
  | nil => simp at h
  | cons e t ih =>
    obtain ⟨n, m⟩ := e
    simp only [List.lookup_cons] at h
    split at h
    · next hn => simp_all
    · exact List.mem_cons_of_mem _ (ih h)

/-- A label has a code exactly when it is one of the eight (40_config_codec.md R120). -/
theorem channelCode_eq_none {label : String} :
    channelCode label = none ↔
      label ∉ ["AIN0-AIN1", "AIN0-AIN3", "AIN1-AIN3", "AIN2-AIN3", "AIN0", "AIN1", "AIN2", "AIN3"] := by
  simp only [channelCode, channelTable, List.lookup_eq_none_iff]
  simp

/-- The whole of what a next state of an operation can be: the result port carries a lawful result, and
nothing else has changed (00_scope.md R12; 10_state.md R20). -/
theorem exec_cases (i : Instr) (s : State) :
    (∃ r, Result.lawful r = true ∧ exec i s = .next { s with result := some r }) ∨
    (∃ bytes, i = .decr bytes ∧ bytes.length ≠ 2 ∧
      exec i s = .refused (.decrByteCount bytes.length)) := by
  cases i with
  | enc os mux pga mode dr cmode cpol clat cque =>
    left
    cases h : firstOutOfRange (fieldOperands os mux pga mode dr cmode cpol clat cque) with
    | none => exact ⟨_, rfl, execEnc_ok h s⟩
    | some f => exact ⟨_, rfl, execEnc_fault h s⟩
  | decf msb lsb => exact .inl ⟨_, rfl, rfl⟩
  | decr bytes =>
    by_cases h : bytes.length = 2
    · obtain ⟨a, b, rfl⟩ := List.length_eq_two.1 h
      exact .inl ⟨_, rfl, rfl⟩
    · exact .inr ⟨bytes, rfl, h, execDecr_refused h s⟩
  | gainlut gain =>
    left
    cases h : gainEntry gain with
    | none =>
      refine ⟨_, ?_, execGainlut_fault h s⟩
      rcases gainEntry_cases gain with ⟨-, k, -, he⟩ | ⟨hg, -⟩
      · rw [he] at h; cases h
      · simpa [Result.lawful] using hg
    | some e =>
      refine ⟨_, ?_, execGainlut_ok h s⟩
      have hp := gainEntry_ports h
      simp only [Result.lawful, List.any_eq_true, Bool.and_eq_true, decide_eq_true_eq]
      exact ⟨e, List.mem_of_getElem? h, hp.1, hp.2⟩
  | scale raw gain =>
    left
    cases h : gainEntry gain with
    | none =>
      refine ⟨_, ?_, execScale_fault h raw s⟩
      rcases gainEntry_cases gain with ⟨-, k, -, he⟩ | ⟨hg, -⟩
      · rw [he] at h; cases h
      · simpa [Result.lawful] using hg
    | some e =>
      refine ⟨_, ?_, execScale_ok h raw s⟩
      simpa [Result.lawful, voltsPv_toInt raw h] using voltsPv_bound raw h
  | chsel label =>
    left
    cases h : channelCode label with
    | none => exact ⟨_, rfl, execChsel_fault h s⟩
    | some mux => exact ⟨_, rfl, execChsel_ok h s⟩
  | cfgframe msb lsb => exact .inl ⟨_, rfl, rfl⟩
  | convframe => exact .inl ⟨_, rfl, rfl⟩

/-- An operation that answers leaves everything but the result port as it was. -/
theorem exec_next {i : Instr} {s t : State} (h : exec i s = .next t) :
    ∃ r, Result.lawful r = true ∧ t = { s with result := some r } := by
  rcases exec_cases i s with ⟨r, hr, he⟩ | ⟨bytes, -, -, he⟩
  · rw [he] at h; cases h; exact ⟨r, hr, rfl⟩
  · rw [he] at h; cases h

/-- An operation never stops with a fault of the machine: the block's faults are results (R177). -/
theorem exec_ne_fault (i : Instr) (s : State) (f : Fault) : exec i s ≠ .fault f := by
  rcases exec_cases i s with ⟨r, -, he⟩ | ⟨bytes, -, -, he⟩ <;> rw [he] <;> simp

end Sys2Proof.Machine
end

