-- ==== Sys2Proof/Laws/Device.lean ====
section
/-! SUPPORT. The device: what settling does, and what each transfer does to a lawful device. -/

namespace Sys2Proof.Machine

theorem Device.settle_none {now : Nat} {d : Device} (h : d.flight = none) :
    Device.settle now d = d := by
  simp only [Device.settle, h]

theorem Device.settle_early {now : Nat} {d : Device} {f : Flight} (h : d.flight = some f)
    (hn : now < f.readyAt) : Device.settle now d = d := by
  have : ¬ f.readyAt ≤ now := by omega
  simp only [Device.settle, h, this, if_false]

theorem Device.settle_ready {now : Nat} {d : Device} {f : Flight} (h : d.flight = some f)
    (hn : f.readyAt ≤ now) :
    Device.settle now d =
      { d with flight := none
               conversion := if f.determinate then f.sample else f.other
               conversionContents :=
                 if f.determinate || (d.configKnown && !isContinuous d.config) then .held
                 else .running } := by
  simp only [Device.settle, h, hn, if_true]

/-- Settling a second time changes nothing. -/
theorem Device.settle_flight_none {now : Nat} {d : Device} (h : (Device.settle now d).flight = none)
    (now' : Nat) : Device.settle now' (Device.settle now d) = Device.settle now d :=
  Device.settle_none h

/-- Settling touches neither the Configuration register nor the thresholds. -/
@[simp] theorem Device.settle_frame (now : Nat) (d : Device) :
    (Device.settle now d).config = d.config ∧ (Device.settle now d).configKnown = d.configKnown ∧
    (Device.settle now d).loThreshold = d.loThreshold ∧
    (Device.settle now d).hiThreshold = d.hiThreshold := by
  simp only [Device.settle]
  split
  · simp
  · split <;> simp

/-- Settling does not change whether the device is known to convert continuously. -/
@[simp] theorem Device.settle_continuous (now : Nat) (d : Device) :
    (Device.settle now d).continuous = d.continuous := by
  simp [Device.continuous]

/-- A conversion that settling leaves in flight was in flight before, unchanged, and is not settled. -/
theorem Device.settle_flight {now : Nat} {d : Device} {f : Flight}
    (h : (Device.settle now d).flight = some f) : d.flight = some f ∧ now < f.readyAt := by
  simp only [Device.settle] at h
  split at h
  · next hn => rw [hn] at h; cases h
  · next g hg =>
    split at h
    · cases h
    · next hr =>
      rw [hg] at h
      cases h
      exact ⟨hg, by omega⟩

/-- Pointers 0x02 and 0x03 are not covered (20_memory.md R52). -/
theorem registerOf_uncovered {p : Byte} (h : p = 2 ∨ p = 3) :
    registerOf p = .error (.uncoveredRegister p) := by
  rcases h with rfl | rfl <;> rfl

/-- Pointers 0x04 to 0xFF are no addresses (20_memory.md R52). -/
theorem registerOf_notAnAddress {p : Byte} (h : 4 ≤ p.toNat) :
    registerOf p = .error (.notAnAddress p) := by
  revert p; decide

/-- Eight samples per second is the slowest rate (30_encoding.md R84). -/
theorem conversionTicks_le (dr : BitVec 3) : conversionTicks dr ≤ slowestConversionTicks := by
  revert dr; decide

theorem settledAt_le (now : Nat) (w : Word16) :
    settledAt now w ≤ now + slowestConversionTicks + Config.settleMargin := by
  have := conversionTicks_le (unpack (msbOf w) (lsbOf w)).dr
  simp only [settledAt]
  omega

/-- What `Device.lawful` says of a device with no conversion in flight. -/
theorem Device.lawful_none {now : Nat} {d : Device} (h : d.flight = none) :
    Device.lawful now d = true ↔
      d.loThreshold = 0x8000 ∧ d.hiThreshold = 0x7FFF ∧
      (d.conversionContents = .powerUp → Device.continuous d = false) ∧
      (d.conversionContents = .running → d.configKnown = false ∨ isContinuous d.config = true) := by
  simp only [Device.lawful, h]
  cases d.conversionContents <;> simp [and_assoc]

/-- What `Device.lawful` says of a device with a conversion in flight. -/
theorem Device.lawful_some {now : Nat} {d : Device} {f : Flight} (h : d.flight = some f) :
    Device.lawful now d = true ↔
      d.loThreshold = 0x8000 ∧ d.hiThreshold = 0x7FFF ∧
      f.readyAt ≤ now + slowestConversionTicks + Config.settleMargin ∧ f.busyUntil ≤ f.readyAt ∧
      (f.determinate = true → d.configKnown = true) := by
  simp only [Device.lawful, h]
  cases f.determinate <;> simp [and_assoc]

theorem Device.lawful_powerUp (now : Nat) : Device.lawful now Device.powerUp = true := by
  rw [Device.lawful_none rfl]
  simp only [Device.powerUp]
  decide

/-- Time passing keeps a device lawful. -/
theorem Device.lawful_mono {now now' : Nat} (h : now ≤ now') {d : Device}
    (hd : Device.lawful now d = true) : Device.lawful now' d = true := by
  cases hf : d.flight with
  | none => rw [Device.lawful_none hf] at hd ⊢; exact hd
  | some f =>
    rw [Device.lawful_some hf] at hd ⊢
    exact ⟨hd.1, hd.2.1, by omega, hd.2.2.2⟩

theorem Device.lawful_settle {now : Nat} {d : Device} (hd : Device.lawful now d = true) :
    Device.lawful now (Device.settle now d) = true := by
  cases hf : d.flight with
  | none => rw [Device.settle_none hf]; exact hd
  | some f =>
    by_cases hn : f.readyAt ≤ now
    · rw [Device.settle_ready hf hn, Device.lawful_none rfl]
      rw [Device.lawful_some hf] at hd
      refine ⟨hd.1, hd.2.1, by simp; split <;> simp, fun h => ?_⟩
      cases hk : d.configKnown <;> cases hc : isContinuous d.config <;> simp_all
    · rw [Device.settle_early hf (by omega)]; exact hd

/-- Marking a conversion in flight as one no read may rely on keeps a device lawful. -/
theorem Device.lawful_spoil {now : Nat} {d : Device} (hd : Device.lawful now d = true) :
    Device.lawful now (Device.spoil d) = true := by
  cases hf : d.flight with
  | none =>
    have : Device.spoil d = d := by cases d; simp_all [Device.spoil]
    rw [this]; exact hd
  | some f =>
    have h' : (Device.spoil d).flight = some { f with determinate := false } := by
      simp [Device.spoil, hf]
    rw [Device.lawful_some h']
    rw [Device.lawful_some hf] at hd
    exact ⟨hd.1, hd.2.1, hd.2.2.1, hd.2.2.2.1, by simp⟩

@[simp] theorem Device.spoil_frame (d : Device) :
    (Device.spoil d).config = d.config ∧ (Device.spoil d).configKnown = d.configKnown ∧
    (Device.spoil d).conversion = d.conversion ∧
    (Device.spoil d).conversionContents = d.conversionContents ∧
    (Device.spoil d).loThreshold = d.loThreshold ∧ (Device.spoil d).hiThreshold = d.hiThreshold ∧
    (Device.spoil d).flight = d.flight.map fun f => { f with determinate := false } := by
  simp [Device.spoil]

/-- What is said of the word in the register may change where a rule lets it, a conversion in flight spoilt
or not. -/
theorem Device.lawful_change {now : Nat} {d d' : Device} (hd : Device.lawful now d = true)
    (hl : d'.loThreshold = d.loThreshold) (hh : d'.hiThreshold = d.hiThreshold)
    (hf : d'.flight = d.flight.map fun f => { f with determinate := false })
    (hp : d'.conversionContents = .powerUp → Device.continuous d' = false)
    (hr : d'.conversionContents = .running → d'.configKnown = false ∨ isContinuous d'.config = true) :
    Device.lawful now d' = true := by
  cases hg : d.flight with
  | none =>
    rw [hg] at hf
    rw [Device.lawful_none hg] at hd
    rw [Device.lawful_none hf, hl, hh]
    exact ⟨hd.1, hd.2.1, hp, hr⟩
  | some f =>
    rw [hg] at hf
    rw [Device.lawful_some hg] at hd
    rw [Device.lawful_some (f := { f with determinate := false }) hf, hl, hh]
    exact ⟨hd.1, hd.2.1, hd.2.2.1, hd.2.2.2.1, by simp⟩

theorem Device.lawful_afterConversionRead {now : Nat} {d : Device} (hd : Device.lawful now d = true) :
    Device.lawful now (Device.afterConversionRead now d) = true := by
  have h := Device.lawful_settle hd
  cases hf : (Device.settle now d).flight with
  | none =>
    rw [Device.lawful_none hf] at h
    rw [Device.lawful_none (by simp [Device.afterConversionRead, hf])]
    cases hk : d.configKnown <;> cases hc : isContinuous d.config <;>
      simp_all [Device.afterConversionRead, Device.continuous]
  | some f =>
    rw [Device.lawful_some hf] at h
    rw [Device.lawful_some (f := { f with determinate := false })
      (by simp [Device.afterConversionRead, hf])]
    exact ⟨h.1, h.2.1, h.2.2.1, h.2.2.2.1, by simp⟩

theorem Device.lawful_configWriteFailed {now : Nat} {d : Device} (hd : Device.lawful now d = true) :
    Device.lawful now (Device.configWriteFailed now d) = true :=
  Device.lawful_change (Device.lawful_settle hd) (by simp [Device.configWriteFailed])
    (by simp [Device.configWriteFailed]) (by simp [Device.configWriteFailed])
    (by simp [Device.configWriteFailed]) (by simp [Device.configWriteFailed])

/-- A Configuration write replaces the register whole (R60) and reaches no threshold (R29). -/
@[simp] theorem Device.configWrite_frame (now k : Nat) (clean : Bool) (w : Word16) (d : Device) :
    (Device.configWrite now k clean w d).config = w ∧
    (Device.configWrite now k clean w d).configKnown = true ∧
    (Device.configWrite now k clean w d).loThreshold = d.loThreshold ∧
    (Device.configWrite now k clean w d).hiThreshold = d.hiThreshold := by
  simp only [Device.configWrite]
  split
  · simp
  · split <;> simp

/-- A Configuration write that starts nothing leaves a conversion in flight, spoilt (R80, R211). -/
theorem Device.configWrite_idle {now k : Nat} {clean : Bool} {w : Word16} {d : Device}
    (h : startsConverting w = false) :
    (Device.configWrite now k clean w d).flight =
      (Device.settle now d).flight.map fun f => { f with determinate := false } := by
  simp only [Device.configWrite, h, Bool.false_eq_true, if_false]
  split <;> simp

theorem Device.lawful_configWrite {now k : Nat} {clean : Bool} {w : Word16} {d : Device}
    (hd : Device.lawful now d = true) :
    Device.lawful now (Device.configWrite now k clean w d) = true := by
  have h := Device.lawful_settle hd
  simp only [Device.configWrite]
  split
  · rw [Device.lawful_some rfl]
    have h1 := settledAt_le now w
    have h2 : busyUntil now w ≤ settledAt now w := Nat.le_add_right _ _
    cases hg : (Device.settle now d).flight with
    | none =>
      rw [Device.lawful_none hg] at h
      exact ⟨h.1, h.2.1, by simpa using h1, by simp; omega, by simp⟩
    | some g =>
      rw [Device.lawful_some hg] at h
      obtain ⟨a, b, c, e, -⟩ := h
      refine ⟨a, b, ?_, ?_, by simp⟩ <;> simp <;> omega
  · next hs =>
    have hw : isContinuous w = false := by
      simp only [startsConverting, Bool.or_eq_true, not_or, Bool.not_eq_true] at hs
      exact hs.1
    split
    · exact Device.lawful_change h (by simp) (by simp) (by simp) (by simp) (by simp)
    · next hc =>
      exact Device.lawful_change h (by simp) (by simp) (by simp)
        (by simp [Device.continuous, hw])
        (fun hr => absurd (by simpa using hr) (not_or.1 hc).1)

end Sys2Proof.Machine
end

