-- ==== Sys2Proof/Laws/Sequences.lean ====
section
/-! SUPPORT. The sequences of a session: what each operation does to the open ones. -/

namespace Sys2Proof.Machine

@[simp] theorem Sequence.violate_seq (e : Sequence) : e.violate.seq = e.seq := rfl

@[simp] theorem Sequence.violate_phase (e : Sequence) : e.violate.phase = e.phase := rfl

@[simp] theorem Sequence.violate_isOpen (e : Sequence) : e.violate.isOpen = e.isOpen := rfl

/-- A violated open sequence is marked. -/
theorem Sequence.violate_violated {e : Sequence} (h : e.isOpen = true) :
    e.violate.violated = true := by simp [Sequence.violate, h]

theorem Session.mem_opened {x : Session} {e : Sequence} :
    e ∈ x.opened ↔ e ∈ x.sequences ∧ e.isOpen = true := by simp [Session.opened]

/-- No sequence is open, said of the list of the open ones. -/
theorem Session.allClosed_iff {x : Session} :
    Sequences.allClosed x.sequences = true ↔ x.opened = [] := by
  simp [Sequences.allClosed, Session.opened, List.filter_eq_nil_iff]

theorem Sequences.mem_finish {q : Option Nat} {l : List Sequence} {e : Sequence} :
    e ∈ Sequences.finish q l ↔ e ∈ l ∧ e.seq ≠ q := by
  simp [Sequences.finish]

theorem Sequences.mem_dropCollected {q : Option Nat} {l : List Sequence} {e : Sequence} :
    e ∈ Sequences.dropCollected q l ↔ e ∈ l ∧ ¬ (e.seq = q ∧ e.collected = true) := by
  simp [Sequences.dropCollected, imp_iff_not_or]

/-- After a transfer that R211 forbids, every open sequence is violated. -/
theorem Sequences.violate_open {l : List Sequence} {e : Sequence} (h : e ∈ Sequences.violate l)
    (ho : e.isOpen = true) : e.violated = true := by
  simp only [Sequences.violate, List.mem_map] at h
  obtain ⟨e', -, rfl⟩ := h
  exact Sequence.violate_violated ho

/-- A conversion read leaves every sequence that is still open violated (R211). -/
theorem Sequences.collect_open {q : Option Nat} {l : List Sequence} {e : Sequence}
    (h : e ∈ Sequences.collect q l) (ho : e.isOpen = true) : e.violated = true := by
  induction l with
  | nil => simp [Sequences.collect] at h
  | cons x t ih =>
    simp only [Sequences.collect] at h
    split at h
    · rcases List.mem_cons.1 h with rfl | h
      · exact absurd ho (by simp [Sequence.isOpen])
      · exact Sequences.violate_open h ho
    · rcases List.mem_cons.1 h with rfl | h
      · exact Sequence.violate_violated ho
      · exact ih h

/-- A sequence that has ended is in Idle (R217). -/
@[simp] theorem Sequences.phase_finish (q : Option Nat) (d : Device) (l : List Sequence) :
    Session.phase q { device := d, sequences := Sequences.finish q l } = none := by
  simp [Session.phase, Sequences.mem_finish]

/-- Marking sequences as violated moves no phase. -/
@[simp] theorem Sequences.phase_violate (q : Option Nat) (d : Device) (l : List Sequence) :
    Session.phase q { device := d, sequences := Sequences.violate l } =
      Session.phase q { device := d, sequences := l } := by
  simp only [Session.phase, Sequences.violate, List.find?_map, Option.map_map]
  rfl

theorem Session.opened_nil {x : Session} :
    x.opened = [] ↔ ∀ e ∈ x.sequences, e.isOpen = false := by
  simp [Session.opened, List.filter_eq_nil_iff]

/-- A read of an open sequence that is not violated may rely on the register, and so may one that comes
while none is open (R211). -/
theorem Sequences.trusts_true {q : Option Nat} {x : Session}
    (h : (∃ e, x.opened.find? (fun e => decide (e.seq = q)) = some e ∧ e.violated = false) ∨
      x.opened = []) : Sequences.trusts q x.sequences = true := by
  rcases h with ⟨e, h, hv⟩ | h
  · have : (x.sequences.find? fun e => e.isOpen && decide (e.seq = q)) = some e := by
      simpa [Session.opened, List.find?_filter] using h
    simp [Sequences.trusts, this, hv]
  · have ho := Session.opened_nil.1 h
    have : (x.sequences.find? fun e => e.isOpen && decide (e.seq = q)) = none := by
      rw [List.find?_eq_none]
      intro e he
      simp [ho e he]
    simp [Sequences.trusts, this, Session.allClosed_iff.2 h]

/-- A read of a violated sequence may rely on nothing, and neither may one of none that is open while
another is (R211). -/
theorem Sequences.trusts_false {q : Option Nat} {x : Session}
    (h : (∃ e, x.opened.find? (fun e => decide (e.seq = q)) = some e ∧ e.violated = true) ∨
      (x.opened ≠ [] ∧ ∀ e ∈ x.opened, e.seq ≠ q)) : Sequences.trusts q x.sequences = false := by
  rcases h with ⟨e, h, hv⟩ | ⟨h, hs⟩
  · have : (x.sequences.find? fun e => e.isOpen && decide (e.seq = q)) = some e := by
      simpa [Session.opened, List.find?_filter] using h
    simp [Sequences.trusts, this, hv]
  · have hn : (x.sequences.find? fun e => e.isOpen && decide (e.seq = q)) = none := by
      rw [List.find?_eq_none]
      intro e he
      simp only [Bool.and_eq_true, decide_eq_true_eq, not_and]
      exact fun ho => hs e (Session.mem_opened.2 ⟨he, ho⟩)
    have : ¬ Sequences.allClosed x.sequences = true := fun hc => h (Session.allClosed_iff.1 hc)
    simp [Sequences.trusts, hn, this]

/-- Where none is open, marking violations opens none. -/
theorem Sequences.violate_closed {l : List Sequence} (h : ∀ e ∈ l, e.isOpen = false) :
    ∀ e ∈ Sequences.violate l, e.isOpen = false := by
  intro e he
  simp only [Sequences.violate, List.mem_map] at he
  obtain ⟨e', h1, rfl⟩ := he
  simpa using h e' h1

/-- A read opens no sequence. -/
theorem Sequences.collect_closed {q : Option Nat} {l : List Sequence}
    (h : ∀ e ∈ l, e.isOpen = false) : ∀ e ∈ Sequences.collect q l, e.isOpen = false := by
  induction l with
  | nil => simp [Sequences.collect]
  | cons x t ih =>
    have hx := h x (by simp)
    simp only [Sequences.collect, hx]
    intro e he
    simp only [Bool.false_eq_true, false_and, if_false, List.mem_cons] at he
    rcases he with rfl | he
    · simpa using hx
    · exact ih (fun e he => h e (by simp [he])) e he

/-- The read of the one open sequence leaves none open (R211). -/
theorem Sequences.collect_single {q : Option Nat} {l : List Sequence} {o : Sequence}
    (h : l.filter Sequence.isOpen = [o]) (hq : o.seq = q) :
    ∀ e ∈ Sequences.collect q l, e.isOpen = false := by
  induction l with
  | nil => simp at h
  | cons x t ih =>
    simp only [Sequences.collect]
    by_cases hx : x.isOpen = true
    · rw [List.filter_cons_of_pos hx, List.cons.injEq] at h
      obtain ⟨rfl, h⟩ := h
      simp only [hx, hq, true_and, if_true, List.mem_cons]
      rintro e (rfl | he)
      · rfl
      · exact Sequences.violate_closed (by simpa [List.filter_eq_nil_iff] using h) e he
    · rw [List.filter_cons_of_neg hx] at h
      simp only [hx, false_and, Bool.false_eq_true, if_false, List.mem_cons]
      rintro e (rfl | he)
      · simpa using hx
      · exact ih h e he

/-- Violating keeps every open sequence, with its number and phase, and opens none (R211). -/
theorem Sequences.violate_opened (l : List Sequence) :
    (Sequences.violate l).filter Sequence.isOpen =
      (l.filter Sequence.isOpen).map fun e => { e with violated := true } := by
  induction l with
  | nil => rfl
  | cons e t ih =>
    simp only [Sequences.violate, List.map_cons] at ih ⊢
    by_cases h : e.isOpen = true
    · rw [List.filter_cons_of_pos (by simpa using h), List.filter_cons_of_pos h, ih, List.map_cons]
      simp [Sequence.violate, h]
    · rw [List.filter_cons_of_neg (by simpa using h), List.filter_cons_of_neg h, ih]

/-- A read takes the oldest open sequence of its number, and keeps and violates every other open one
(R211). -/
theorem Sequences.collect_opened (q : Option Nat) (l : List Sequence) :
    (Sequences.collect q l).filter Sequence.isOpen =
      ((l.filter Sequence.isOpen).eraseP fun e => decide (e.seq = q)).map
        fun e => { e with violated := true } := by
  induction l with
  | nil => rfl
  | cons e t ih =>
    simp only [Sequences.collect]
    by_cases h : e.isOpen = true
    · rw [List.filter_cons_of_pos h]
      by_cases hq : e.seq = q
      · simp only [h, hq, true_and, if_true]
        rw [List.filter_cons_of_neg (by simp [Sequence.isOpen]), Sequences.violate_opened]
        simp [hq]
      · simp only [hq, and_false, if_false]
        rw [List.filter_cons_of_pos (by simpa using h), ih]
        simp [hq, Sequence.violate, h]
    · have h' : e.isOpen = false := by simpa using h
      rw [List.filter_cons_of_neg h]
      simp only [h', Bool.false_eq_true, false_and, if_false]
      rw [List.filter_cons_of_neg (by simpa using h), ih]

/-- DECR keeps the open sequences as they are (R217). -/
theorem Sequences.decoded_opened (q : Option Nat) (l : List Sequence) :
    (Sequences.decoded q l).filter Sequence.isOpen = l.filter Sequence.isOpen := by
  induction l with
  | nil => rfl
  | cons e t ih =>
    simp only [Sequences.decoded]
    split
    · next h => simp [Sequence.isOpen, h.2.1]
    · simp [List.filter_cons, ih]

/-- SCALE and a FAULT only take sequences away. -/
theorem Sequences.output_sublist (q : Option Nat) (l : List Sequence) :
    (Sequences.output q l).Sublist l := List.eraseP_sublist

theorem Sequences.finish_sublist (q : Option Nat) (l : List Sequence) :
    (Sequences.finish q l).Sublist l := List.filter_sublist

/-- A wait takes only ConfigWritten to Waiting, so it opens and collects none. -/
theorem Sequences.await_opened (q : Option Nat) (l : List Sequence) :
    ((Sequences.await q l).filter Sequence.isOpen).map Sequence.violated =
      (l.filter Sequence.isOpen).map Sequence.violated := by
  induction l with
  | nil => rfl
  | cons e t ih =>
    simp only [Sequences.await, List.map_cons] at ih ⊢
    have hi : (if e.seq = q ∧ e.phase = .configWritten then { e with phase := .waiting } else e).isOpen =
        e.isOpen := by split <;> rfl
    by_cases h : e.isOpen = true
    · rw [List.filter_cons_of_pos (by rw [hi]; exact h), List.filter_cons_of_pos h, List.map_cons,
        List.map_cons, ih]
      congr 1
      split <;> rfl
    · rw [List.filter_cons_of_neg (by rw [hi]; exact h), List.filter_cons_of_neg h, ih]

@[simp] theorem Sequences.afterResult_fault (q : Option Nat) (f : BlockFault) (l : List Sequence) :
    Sequences.afterResult q (.fault f) l = Sequences.finish q l := rfl

@[simp] theorem Sequences.afterResult_decr (q : Option Nat) (raw : Word16) (l : List Sequence) :
    Sequences.afterResult q (.ok (.decr raw)) l = Sequences.decoded q l := rfl

@[simp] theorem Sequences.afterResult_scale (q : Option Nat) (v : BitVec 64) (l : List Sequence) :
    Sequences.afterResult q (.ok (.scale v)) l = Sequences.output q l := rfl

/-- Everything a result can do to the sequences of its session: FAULT, DECR, SCALE, and nothing. -/
theorem Sequences.afterResult_cases (q : Option Nat) (r : Result) :
    (∃ f, r = .fault f) ∨ (∃ raw, r = .ok (.decr raw)) ∨ (∃ v, r = .ok (.scale v)) ∨
    ((∃ o, r = .ok o) ∧ (∀ raw, r ≠ .ok (.decr raw)) ∧ (∀ v, r ≠ .ok (.scale v)) ∧
      ∀ l, Sequences.afterResult q r l = l) := by
  cases r with
  | fault f => exact .inl ⟨f, rfl⟩
  | ok o => cases o <;> simp <;> exact fun _ => rfl

/-- No result opens a sequence: DECR keeps the open ones as they are, and FAULT and SCALE only take away. -/
theorem Sequences.afterResult_opened (q : Option Nat) (r : Result) (l : List Sequence) :
    ((Sequences.afterResult q r l).filter Sequence.isOpen).Sublist (l.filter Sequence.isOpen) := by
  rcases Sequences.afterResult_cases q r with ⟨f, rfl⟩ | ⟨raw, rfl⟩ | ⟨v, rfl⟩ | ⟨-, -, -, h⟩
  · exact (Sequences.finish_sublist q l).filter _
  · rw [Sequences.afterResult_decr, Sequences.decoded_opened]
  · exact (Sequences.output_sublist q l).filter _
  · rw [h]

/-! What keeps every sequence lawful: the phase agrees with whether the result has been collected. -/

@[simp] theorem Sequence.violate_lawful (e : Sequence) : e.violate.lawful = e.lawful := rfl

theorem Sequences.violate_lawful {l : List Sequence} (h : l.all Sequence.lawful = true) :
    (Sequences.violate l).all Sequence.lawful = true := by
  simpa [Sequences.violate] using h

theorem Sequences.sublist_lawful {l l' : List Sequence} (hs : l'.Sublist l)
    (h : l.all Sequence.lawful = true) : l'.all Sequence.lawful = true := by
  rw [List.all_eq_true] at h ⊢
  exact fun e he => h e (hs.subset he)

theorem Sequences.begin_lawful {q : Option Nat} {clean : Bool} {l : List Sequence}
    (h : l.all Sequence.lawful = true) : (Sequences.begin q clean l).all Sequence.lawful = true := by
  rw [Sequences.begin, List.all_append, Bool.and_eq_true]
  exact ⟨Sequences.violate_lawful (Sequences.sublist_lawful List.filter_sublist h), rfl⟩

theorem Sequences.await_lawful {q : Option Nat} {l : List Sequence}
    (h : l.all Sequence.lawful = true) : (Sequences.await q l).all Sequence.lawful = true := by
  simp only [Sequences.await, List.all_map, List.all_eq_true, Function.comp] at h ⊢
  intro e he
  split
  · rfl
  · exact h e he

theorem Sequences.collect_lawful {q : Option Nat} {l : List Sequence}
    (h : l.all Sequence.lawful = true) : (Sequences.collect q l).all Sequence.lawful = true := by
  induction l with
  | nil => rfl
  | cons e t ih =>
    simp only [List.all_cons, Bool.and_eq_true] at h
    simp only [Sequences.collect]
    split
    · simp only [List.all_cons, Bool.and_eq_true]
      exact ⟨rfl, Sequences.violate_lawful h.2⟩
    · simp only [List.all_cons, Sequence.violate_lawful, h.1, ih h.2, Bool.and_self]

theorem Sequences.afterResult_lawful {q : Option Nat} {r : Result} {l : List Sequence}
    (h : l.all Sequence.lawful = true) : (Sequences.afterResult q r l).all Sequence.lawful = true := by
  have hd : (Sequences.decoded q l).all Sequence.lawful = true := by
    induction l with
    | nil => rfl
    | cons e t ih =>
      simp only [List.all_cons, Bool.and_eq_true] at h
      simp only [Sequences.decoded]
      split
      · next hc =>
        simp only [List.all_cons, Bool.and_eq_true]
        exact ⟨hc.2.1, h.2⟩
      · simp only [List.all_cons, h.1, ih h.2, Bool.and_self]
  rcases Sequences.afterResult_cases q r with ⟨f, rfl⟩ | ⟨raw, rfl⟩ | ⟨v, rfl⟩ | ⟨-, -, -, hl⟩
  · exact Sequences.sublist_lawful (Sequences.finish_sublist q l) h
  · exact hd
  · exact Sequences.sublist_lawful (Sequences.output_sublist q l) h
  · rw [hl]; exact h

end Sys2Proof.Machine
end

