-- ==== Sys2Proof/Laws/Step.lean ====
section
/-! SUPPORT. What a step can do, once: the step of each action, and the inversion of `step`. -/

namespace Sys2Proof.Machine

/-- A step takes the next action (10_state.md R21). -/
theorem step_cons {s : State} {x : Action} {rest : List Action} (h : s.pending = x :: rest) :
    step s = perform exec x (s.withPending rest) := by
  simp only [step, stepWith, h]

/-- The decoder rejects an `op` exactly when it is reserved (30_encoding.md R73). -/
theorem decode_illegalOp {r : Request} {op : BitVec 4} :
    decode r = .error (.illegalOp op) ↔ r.op = op ∧ 8 ≤ op.toNat := by
  by_cases h : 8 ≤ r.op.toNat
  · have hlt := r.op.isLt
    have : decode r = .error (.illegalOp r.op) := by
      interval_cases hv : r.op.toNat <;> simp only [decode, hv]
    rw [this]
    constructor
    · intro e; cases e; exact ⟨rfl, h⟩
    · rintro ⟨rfl, -⟩; rfl
  · constructor
    · intro hd
      interval_cases hv : r.op.toNat <;> simp only [decode, hv] at hd <;> try cases hd
      split at hd <;> cases hd
    · rintro ⟨rfl, h'⟩; exact absurd h' h

theorem conclude_of_result {s : State} {r : Result} (h : s.result = some r) (a : BitVec 7)
    (q dst : Option Nat) :
    conclude a q dst s =
      (s.setSequences a (Sequences.afterResult q r (s.session a).sequences)).report a q dst r := by
  simp only [conclude, h]

/-- What a request or a line leaves in the state: a lawful result stands on the port, moves the sequences
of its session, and is reported in its sequence. -/
structure RequestEffect (a : BitVec 7) (q dst : Option Nat) (r : Result) (s t : State) : Prop where
  lawful : Result.lawful r = true
  is     : t =
    ((s.setResult r).setSequences a (Sequences.afterResult q r (s.session a).sequences)).report a q dst r

/-- Presenting a request that is answered has the effect of a request. -/
theorem present_next {a : BitVec 7} {q dst : Option Nat} {req : Request} {s t : State}
    (h : present exec a q dst req s = .next t) : ∃ r, RequestEffect a q dst r s t := by
  simp only [present] at h
  split at h
  · next i _ =>
    cases he : exec i s with
    | next u =>
      rw [he] at h
      obtain ⟨r, hr, rfl⟩ := exec_next he
      cases h
      exact ⟨r, hr, conclude_of_result rfl a q dst⟩
    | fault f => exact absurd he (exec_ne_fault i s f)
    | refused e => rw [he] at h; cases h
  · next op hd =>
    cases h
    refine ⟨.fault (.illegalOp op), ?_, conclude_of_result rfl a q dst⟩
    simpa [Result.lawful] using (decode_illegalOp.1 hd).2
  · cases h

/-- The sequences after a failed read of a register. -/
def afterFailedRead (r : Register) (q : Option Nat) (l : List Sequence) : List Sequence :=
  match r with
  | .conversion => Sequences.violate (Sequences.finish q l)
  | .config => Sequences.finish q l

/-- The inversion of `step`: one case for each kind of action. `s₀` is the state with the action
taken off the list. -/
theorem step_next {s t : State} (h : step s = .next t) :
    ∃ x rest, s.pending = x :: rest ∧
      let s₀ := s.withPending rest
      let y := s₀.session x.addr
      (∃ dst r, ((∃ req, x.act = .request dst req) ∨ (∃ l, x.act = .line dst l)) ∧
        RequestEffect x.addr x.seq dst r s₀ t) ∨
      (∃ dst arg b w, x.act = .write dst arg true ∧ FrameArg.value s.results arg = .ok b ∧
        writtenWord b = .ok w ∧
        t = ((s₀.setSession x.addr
          { device := Device.configWrite s.now s.draws (Sequences.allClosed y.sequences) w y.device
            sequences := Sequences.afterWrite x.seq w ((Device.settle s.now y.device).flight.isNone &&
              Sequences.allClosed y.sequences) y.sequences }).drawn).report x.addr x.seq dst (.ok .busWritten)) ∨
      (∃ dst arg b w, x.act = .write dst arg false ∧ FrameArg.value s.results arg = .ok b ∧
        writtenWord b = .ok w ∧
        t = (s₀.setSession x.addr
          { device := Device.configWriteFailed s.now y.device
            sequences := Sequences.violate (Sequences.finish x.seq y.sequences) }).report x.addr x.seq dst
              (.fault .transportError)) ∨
      (∃ dst arg len b n, x.act = .writeThenRead dst arg len true ∧
        FrameArg.value s.results arg = .ok b ∧ Operand.value s.results len = .ok n ∧
        readRegister b n = .ok .conversion ∧
        t = ((s₀.setSession x.addr
          { device := Device.afterConversionRead s.now y.device
            sequences := Sequences.collect x.seq y.sequences }).drawn).report x.addr x.seq dst
              (busRead (Session.conversionWord x.addr x.seq s.now s.draws y))) ∨
      (∃ dst arg len b n, x.act = .writeThenRead dst arg len true ∧
        FrameArg.value s.results arg = .ok b ∧ Operand.value s.results len = .ok n ∧
        readRegister b n = .ok .config ∧
        t = (s₀.drawn).report x.addr x.seq dst (busRead (Device.configWord s.now s.draws y.device))) ∨
      (∃ dst arg len b n r, x.act = .writeThenRead dst arg len false ∧
        FrameArg.value s.results arg = .ok b ∧ Operand.value s.results len = .ok n ∧
        readRegister b n = .ok r ∧
        t = (s₀.setSequences x.addr (afterFailedRead r x.seq y.sequences)).report x.addr x.seq dst
          (.fault .transportError)) ∨
      (∃ ticks, x.act = .wait ticks ∧
        t = (s₀.setSequences x.addr (Sequences.await x.seq y.sequences)).elapse ticks) ∨
      (∃ dst, x.act = .cancel dst ∧
        t = (s₀.setSequences x.addr (Sequences.finish x.seq y.sequences)).report x.addr x.seq dst
          (.fault .cancelled)) := by
  cases hp : s.pending with
  | nil => simp only [step, stepWith, hp] at h; cases h
  | cons x rest =>
    refine ⟨x, rest, rfl, ?_⟩
    rw [step_cons hp] at h
    simp only [perform] at h
    cases hx : x.act with
    | request dst r =>
      simp only [hx] at h
      obtain ⟨q, hq⟩ := present_next h
      exact .inl ⟨dst, q, .inl ⟨r, rfl⟩, hq⟩
    | line dst l =>
      simp only [hx] at h
      split at h
      · next e _ => cases e <;> cases h
      · obtain ⟨q, hq⟩ := present_next h
        exact .inl ⟨dst, q, .inr ⟨l, rfl⟩, hq⟩
    | write dst arg ok =>
      simp only [hx] at h
      split at h
      · next e _ => cases e <;> cases h
      · next b hb =>
        simp only [busWrite] at h
        split at h
        · cases h
        · next w hw =>
          cases ok
          · cases h
            exact .inr (.inr (.inl ⟨dst, arg, b, w, rfl, hb, hw, rfl⟩))
          · cases h
            exact .inr (.inl ⟨dst, arg, b, w, rfl, hb, hw, rfl⟩)
    | writeThenRead dst arg len ok =>
      simp only [hx] at h
      split at h
      · next e _ => cases e <;> cases h
      · next b hb =>
        split at h
        · next e _ => cases e <;> cases h
        · next n hn =>
          simp only [busWriteThenRead] at h
          split at h
          · cases h
          · next r hr =>
            cases ok
            · cases r <;> cases h <;>
                exact .inr (.inr (.inr (.inr (.inr (.inl ⟨dst, arg, len, b, n, _, rfl, hb, hn, hr, rfl⟩)))))
            · cases r
              · cases h
                exact .inr (.inr (.inr (.inl ⟨dst, arg, len, b, n, rfl, hb, hn, hr, rfl⟩)))
              · cases h
                exact .inr (.inr (.inr (.inr (.inl ⟨dst, arg, len, b, n, rfl, hb, hn, hr, rfl⟩))))
    | wait ticks =>
      simp only [hx] at h
      cases h
      exact .inr (.inr (.inr (.inr (.inr (.inr (.inl ⟨ticks, rfl, rfl⟩))))))
    | cancel dst =>
      simp only [hx] at h
      cases h
      exact .inr (.inr (.inr (.inr (.inr (.inr (.inr ⟨dst, rfl, rfl⟩))))))

/-! The step of each bus action that the spec gives a behaviour, as an equation. -/

variable {s : State} {a : BitVec 7} {q dst : Option Nat} {rest : List Action} {arg : FrameArg}
  {len : Operand} {b : List Byte} {w : Word16} {n : Int}

theorem step_write_ok (h : s.pending = { addr := a, seq := q, act := .write dst arg true } :: rest)
    (hb : FrameArg.value s.results arg = .ok b) (hw : writtenWord b = .ok w) :
    step s = .next ((((s.withPending rest).setSession a
      { device := Device.configWrite s.now s.draws (Sequences.allClosed (s.session a).sequences) w
          (s.session a).device
        sequences := Sequences.afterWrite q w ((Device.settle s.now (s.session a).device).flight.isNone &&
          Sequences.allClosed (s.session a).sequences) (s.session a).sequences }).drawn).report a q dst
            (.ok .busWritten)) := by
  rw [step_cons h]
  simp [perform, hb, busWrite, hw]

theorem step_write_failed
    (h : s.pending = { addr := a, seq := q, act := .write dst arg false } :: rest)
    (hb : FrameArg.value s.results arg = .ok b) (hw : writtenWord b = .ok w) :
    step s = .next (((s.withPending rest).setSession a
      { device := Device.configWriteFailed s.now (s.session a).device
        sequences := Sequences.violate (Sequences.finish q (s.session a).sequences) }).report a q dst
          (.fault .transportError)) := by
  rw [step_cons h]
  simp [perform, hb, busWrite, hw]

theorem step_conversionRead
    (h : s.pending = { addr := a, seq := q, act := .writeThenRead dst arg len true } :: rest)
    (hb : FrameArg.value s.results arg = .ok b) (hn : Operand.value s.results len = .ok n)
    (hr : readRegister b n = .ok .conversion) :
    step s = .next ((((s.withPending rest).setSession a
      { device := Device.afterConversionRead s.now (s.session a).device
        sequences := Sequences.collect q (s.session a).sequences }).drawn).report a q dst
          (busRead (Session.conversionWord a q s.now s.draws (s.session a)))) := by
  rw [step_cons h]
  simp [perform, hb, hn, busWriteThenRead, hr]

theorem step_configRead
    (h : s.pending = { addr := a, seq := q, act := .writeThenRead dst arg len true } :: rest)
    (hb : FrameArg.value s.results arg = .ok b) (hn : Operand.value s.results len = .ok n)
    (hr : readRegister b n = .ok .config) :
    step s = .next (((s.withPending rest).drawn).report a q dst
      (busRead (Device.configWord s.now s.draws (s.session a).device))) := by
  rw [step_cons h]
  simp [perform, hb, hn, busWriteThenRead, hr]

theorem step_read_failed {r : Register}
    (h : s.pending = { addr := a, seq := q, act := .writeThenRead dst arg len false } :: rest)
    (hb : FrameArg.value s.results arg = .ok b) (hn : Operand.value s.results len = .ok n)
    (hr : readRegister b n = .ok r) :
    step s = .next (((s.withPending rest).setSequences a
      (afterFailedRead r q (s.session a).sequences)).report a q dst (.fault .transportError)) := by
  rw [step_cons h]
  cases r <;> simp [perform, hb, hn, busWriteThenRead, hr, afterFailedRead]

theorem step_wait {ticks : Nat} (h : s.pending = { addr := a, seq := q, act := .wait ticks } :: rest) :
    step s = .next (((s.withPending rest).setSequences a
      (Sequences.await q (s.session a).sequences)).elapse ticks) := by
  rw [step_cons h]; rfl

end Sys2Proof.Machine
end

