-- ==== Sys2Proof/Laws/PerInstr.lean ====
section
/-! SUPPORT. Statements about the syntax of every instruction, one lemma for each constructor. -/

namespace Sys2Proof.Laws.DecodeEncode

/-- The decoder reads a well-formed instruction back from the request that stands for it
(30_encoding.md R71, R72). -/
def Statement (i : Instr) : Prop := i.wf = true → decode (encode i) = .ok i

theorem enc (os mux pga mode dr cmode cpol clat cque : Nat) :
    Statement (.enc os mux pga mode dr cmode cpol clat cque) := fun _ => rfl

theorem decf (msb lsb : Byte) : Statement (.decf msb lsb) := fun _ => rfl

theorem decr (bytes : List Byte) : Statement (.decr bytes) := by
  intro h
  have hb : bytes.length = 2 := by simpa [Instr.wf] using h
  exact if_pos hb

theorem gainlut (gain : BitVec 3) : Statement (.gainlut gain) := fun _ => rfl

theorem scale (raw : Word16) (gain : BitVec 3) : Statement (.scale raw gain) := fun _ => rfl

theorem chsel (label : String) : Statement (.chsel label) := fun _ => rfl

theorem cfgframe (msb lsb : Byte) : Statement (.cfgframe msb lsb) := fun _ => rfl

theorem convframe : Statement .convframe := fun _ => rfl

end Sys2Proof.Laws.DecodeEncode
end

