-- ==== Sys2Proof/Tests/Slice0.lean ====
section
/-! SUPPORT. Tests. Expected values are those of spec/95_test_vectors.md (V-..., programs P1 to P4) or
of the rule named; none is the model's own answer. Witnesses show that the hypotheses of the
statements can be met. -/

namespace Sys2Proof.Machine

/-- The result port after an operation evaluated at reset. -/
def resultOf (i : Instr) : Option Result :=
  match exec i State.reset with
  | .next t => t.result
  | _ => none

/-- A state with one action pending, in the session at address 0x48. -/
def oneAct (results : List (Nat × Result)) (act : Act) : State :=
  { State.reset with pending := [{ addr := 0x48, act := act }], results := results }

/-- What `rN` is after a step. -/
def namedAfter (s : State) (n : Nat) : Option Result :=
  match step s with
  | .next t => Assoc.get n t.results
  | _ => none

/-- The result port after a step. -/
def portAfter (s : State) : Option Result :=
  match step s with
  | .next t => t.result
  | _ => none

/-! ### Well-formedness: the one check, refused and passed -/

theorem test_wf_refuses_one_byte : Instr.wf (.decr [0x12]) = false := by decide

theorem test_wf_refuses_three_bytes : Instr.wf (.decr [0x12, 0x34, 0x56]) = false := by decide

theorem test_wf_passes_two_bytes : Instr.wf (.decr [0x12, 0x34]) = true := by decide

theorem test_fitsPorts_refuses_wide : Request.fitsPorts 8 { op := 0, cque := 256 } = false := by decide

/-! ### Decoding, each operation's word written out (R72; programs P1 to P4) -/

theorem test_decode_enc :
    decode { op := 0b0000, os := 0x1, mux := 0x6, pga := 0x1, mode := 0x1, dr := 0x4, cmode := 0x0,
             cpol := 0x0, clat := 0x0, cque := 0x3 } = .ok (.enc 1 6 1 1 4 0 0 0 3) := by decide

theorem test_decode_decf :
    decode { op := 0b0001, msb := 0x8B, lsb := 0xE3 } = .ok (.decf 0x8B 0xE3) := by decide

theorem test_decode_decr :
    decode { op := 0b0010, bytes := [0xFC, 0x18] } = .ok (.decr [0xFC, 0x18]) := by decide

theorem test_decode_gainlut : decode { op := 0b0011, gain := 0x1 } = .ok (.gainlut 1) := by decide

theorem test_decode_scale :
    decode { op := 0b0100, raw := 0xFC18, gain := 0x5 } = .ok (.scale 0xFC18 5) := by decide

theorem test_decode_chsel :
    decode { op := 0b0101, label := "AIN0-AIN1" } = .ok (.chsel "AIN0-AIN1") := by decide

theorem test_decode_cfgframe :
    decode { op := 0b0110, msb := 0xE3, lsb := 0x83 } = .ok (.cfgframe 0xE3 0x83) := by decide

theorem test_decode_convframe : decode { op := 0b0111 } = .ok .convframe := by decide

theorem test_decode_reserved : decode { op := 0b1001, msb := 0xFF } = .error (.illegalOp 9) := by decide

theorem test_table_words :
    [0, 1, 2, 3, 4, 5, 6, 7, 8, 15, 16].map (decodeTableWord 8) =
      [some (.enc 0 0 0 0 0 0 0 0 0), some (.decf 0 0), some (.decr [0, 0]), some (.gainlut 0),
       some (.scale 0 0), some (.chsel ""), some (.cfgframe 0 0), some .convframe,
       none, none, none] := by decide

/-- R73: a reserved `op` placed for the next step is answered with IllegalOp. -/
theorem test_fetch_runs_reserved :
    portAfter (State.reset.withRequest { op := 0x9 }) = some (.fault (.illegalOp 9)) := by decide

theorem test_fetch_runs_chsel :
    portAfter (State.reset.withFetchWord 8 5) = some (.fault .unknownChannel) := by decide

/-! ### The operations -/

/-- V-ENC-7. -/
theorem test_enc : resultOf (.enc 0 5 5 0 5 0 0 1 1) = some (.ok (.enc 0x5A 0xA5)) := by decide

/-- V-ENC-F10: never truncated. -/
theorem test_enc_rejects_wide :
    resultOf (.enc 1 0 2 1 255 0 0 0 3) = some (.fault (.invalidFieldValue .dr)) := by decide

/-- V-DECF-3. -/
theorem test_decf :
    resultOf (.decf 0x85 0x83) = some (.ok (.decf ⟨1, 0, 2, 1, 4, 0, 0, 0, 3⟩)) := by decide

/-- V-DECF-5. -/
theorem test_decf_mixed :
    resultOf (.decf 0x5A 0xA5) = some (.ok (.decf ⟨0, 5, 5, 0, 5, 0, 0, 1, 1⟩)) := by decide

/-- V-DECR-9: −4660. -/
theorem test_decr :
    (resultOf (.decr [0xED, 0xCC])).bind Result.outputs = some (.decr (BitVec.ofInt 16 (-4660))) := by
  decide

/-- V-DECR-12. -/
theorem test_decr_refuses_three : resultOf (.decr [0x12, 0x34, 0x56]) = none := by decide

/-- V-GAIN-5. -/
theorem test_gainlut : resultOf (.gainlut 4) = some (.ok (.gainlut 512 15625000)) := by decide

/-- V-GAIN-7. -/
theorem test_gainlut_faults :
    resultOf (.gainlut 6) = some (.fault (.unsupportedGainCode 6)) := by decide

/-- V-SCALE-10: raw −1000 at gain 5. -/
theorem test_scale :
    resultOf (.scale 0xFC18 5) = some (.ok (.scale (BitVec.ofInt 64 (-7812500000)))) := by decide

/-- V-SCALE-14. -/
theorem test_scale_faults_first :
    resultOf (.scale 0 7) = some (.fault (.unsupportedGainCode 7)) := by decide

/-- V-CHSEL-4. -/
theorem test_chsel : resultOf (.chsel "AIN2-AIN3") = some (.ok (.chsel 3)) := by decide

/-- V-CHSEL-15: en dash. -/
theorem test_chsel_en_dash : resultOf (.chsel "AIN0–AIN1") = some (.fault .unknownChannel) := by decide

/-- V-FRAME-1. -/
theorem test_cfgframe :
    resultOf (.cfgframe 0xE3 0x83) = some (.ok (.cfgframe [0x01, 0xE3, 0x83])) := by decide

/-- V-FRAME-3. -/
theorem test_convframe : resultOf .convframe = some (.ok (.convframe [0x00] 2)) := by decide

/-! ### Lines -/

/-- P1 line 2: `r2 = ENCSS r1.mux, 1, 4` after `r1 = OK mux = 6`. -/
theorem test_line_encss :
    namedAfter (oneAct [(1, .ok (.chsel 6))] (.line (some 2) (.encss (.port 1 .mux) (.lit 1) (.lit 4)))) 2
      = some (.ok (.enc 0xE3 0x83)) := by decide

/-- P2 line 2: `r2 = SCALE r1.raw, 1` after `r1 = OK 4660`. -/
theorem test_line_scale_named :
    namedAfter (oneAct [(1, .ok (.decr 0x1234))] (.line (some 2) (.scale (.port 1 .raw) (.lit 1)))) 2
      = some (.ok (.scale 582500000000)) := by decide

theorem test_assemble_encss :
    assemble "r2 = ENCSS r1.mux, 0x5, 0b111" =
      some (.line (some 2) (.encss (.port 1 .mux) (.lit 5) (.lit 7))) := by decide

theorem test_assemble_chsel :
    assemble "r1 = CHSEL \"AIN0-AIN1\"" = some (.line (some 1) (.chsel "AIN0-AIN1")) := by decide

/-- P4 line 3 and line 4; the minus is allowed for `raw` alone (R92). -/
theorem test_assemble_signs :
    assemble "SCALE -5, 7" = some (.line none (.scale (.lit (-5)) (.lit 7))) ∧
    assemble "SCALE 5, -7" = none ∧ assemble "r4 = <op 0x9>" = some (.line (some 4) (.bareOp 9)) := by
  decide

/-- R92: a minus, before 0 too, stands at `raw` alone. -/
theorem test_assemble_minus_zero :
    assemble "GAINLUT -0" = none ∧ assemble "SCALE 5, -0" = none ∧ assemble "<op -0>" = none ∧
    assemble "SCALE -0, 5" = some (.line none (.scale (.lit 0) (.lit 5))) := by decide

/-- R75: a value that its port cannot carry is refused, at both ends of a range and at a later operand. -/
theorem test_operand_does_not_fit :
    ∀ l ∈ [Line.gainlut (.lit 8), .gainlut (.lit (-1)), .scale (.lit 32768) (.lit 0),
           .scale (.lit (-32768)) (.lit 8), .decf (.lit 255) (.lit 256)],
      step (oneAct [] (.line none l)) = .refused .operandDoesNotFit := by
  intro l h
  simp only [List.mem_cons, List.not_mem_nil, or_false] at h
  rcases h with rfl | rfl | rfl | rfl | rfl <;> rfl

/-! ### The device -/

/-- A device with a settled single-shot conversion that nothing violated. -/
def settledDevice : Device :=
  { config := 0xC583, configKnown := true, conversion := 0, conversionContents := .held,
    loThreshold := 0x8000, hiThreshold := 0x7FFF,
    flight := some { readyAt := 5, busyUntil := 3, sample := 0xFC18, other := 0x1234, determinate := true } }

/-- One sequence: in Waiting, with its result collected, and in SampleRead. -/
def waitingSequence : List Sequence := [⟨some 0, .waiting, false, false⟩]

def collectedSequence : List Sequence := [⟨some 0, .waiting, true, false⟩]

def readSequence : List Sequence := [⟨some 0, .sampleRead, true, false⟩]

/-- A session at 0x48 on that device, with the actions of its sequence 0 pending. -/
def onBus (d : Device) (sequences : List Sequence) (now : Nat) (acts : List Act) : State :=
  { pending := acts.map fun act => { addr := 0x48, seq := some 0, act := act }, result := none, results := [],
    sessions := [(0x48, { device := d, sequences := sequences })], now := now, draws := 3 }

/-- What a step leaves of the session at 0x48. -/
def sessionAfter (s : State) : Session :=
  match step s with
  | .next t => t.session 0x48
  | _ => Session.powerUp

/-- R210: at the settle time the sample is read, high byte first. -/
theorem test_settled_read :
    namedAfter (onBus settledDevice waitingSequence 5 [conversionRead 6]) 6 =
      some (.ok (.busRead 0xFC 0x18)) := by decide

/-- V-HAZ-4: a read of a violated sequence is a free draw, whatever has settled. -/
theorem test_violated_read :
    namedAfter (onBus settledDevice [⟨some 0, .waiting, false, true⟩, ⟨some 1, .waiting, false, true⟩] 5
      [conversionRead 6]) 6 = some (busRead (Config.freeWord 3)) := rfl

/-- R211: a write after the read of one of two violated sequences violates the other again, and its own. -/
theorem test_violated_write :
    (sessionAfter (onBus { settledDevice with flight := none }
      [⟨some 1, .sampleRead, true, true⟩, ⟨some 2, .waiting, false, true⟩] 5 [configWrite 1 0xC5 0x83 true])).sequences =
    [⟨some 1, .sampleRead, true, true⟩, ⟨some 2, .waiting, false, true⟩, ⟨some 0, .configWritten, false, true⟩] := by decide

/-- R217: the read leaves its sequence in Waiting, DECR takes it to SampleRead, and SCALE to Idle. -/
theorem test_decr_before_sample_read :
    (sessionAfter (onBus settledDevice waitingSequence 5 [conversionRead 6])).sequences = collectedSequence ∧
    (sessionAfter (onBus settledDevice collectedSequence 5
      [.request none { op := 2, bytes := [0, 1] }])).sequences = readSequence ∧
    (sessionAfter (onBus settledDevice readSequence 5
      [.request none { op := 4, gain := 5 }])).sequences = [] := by decide

/-- R217: a wait moves its own sequence from ConfigWritten, and no other (that it moves both of one number is
log 21). -/
theorem test_wait_moves :
    (sessionAfter (onBus settledDevice [⟨some 0, .configWritten, false, true⟩, ⟨some 1, .configWritten, false, true⟩,
      ⟨some 0, .configWritten, false, true⟩] 4 [.wait 1])).sequences =
    [⟨some 0, .waiting, false, true⟩, ⟨some 1, .configWritten, false, true⟩, ⟨some 0, .waiting, false, true⟩] := by
  decide

/-- R171, R217: a FAULT without a number returns the sequence without a number to Idle, wherever it stands. -/
theorem test_unnumbered_fault :
    (sessionAfter { onBus settledDevice (⟨none, .waiting, false, false⟩ :: waitingSequence) 4 [] with
      pending := [{ addr := 0x48, act := .request none { op := 9 } }] }).sequences = waitingSequence := by
  decide

/-- R213, R217: a cancelled sequence ends, and another one of the device stays open. -/
theorem test_cancel_keeps_others :
    (sessionAfter (onBus settledDevice (⟨some 3, .waiting, false, false⟩ :: waitingSequence) 5
      [.cancel none])).sequences = [⟨some 3, .waiting, false, false⟩] := by decide

/-- R80: in single-shot mode OS = 0 starts nothing (0x0583); in continuous mode it does (0x0483). -/
theorem test_starts_converting :
    startsConverting 0x8583 = true ∧ startsConverting 0x0583 = false ∧
    startsConverting 0x0483 = true := by decide

/-- R80, read direction: 0 while the device performs a conversion and in continuous mode, 1 when none is on. -/
theorem test_os_read_back :
    osRead (Device.osReadBack 2 0 settledDevice) = .converting ∧
    osRead (Device.osReadBack 5 0 settledDevice) = .notConverting ∧
    osRead (Device.osReadBack 5 0 { settledDevice with config := 0x4483 }) = .converting := by decide

/-- R60: an OS = 0 single-shot write leaves the word that the register holds. -/
theorem test_idle_write_keeps_word :
    (sessionAfter (onBus { settledDevice with conversion := 0x1234, flight := none } readSequence 9
      [configWrite 1 0x45 0x83 true])).device.conversion = 0x1234 := by decide

/-- R84: 125 ms at code 0 and 4 ms at code 5. -/
theorem test_conversion_times :
    conversionTicks 0 * 1000 = 125 * ticksPerSecond ∧ conversionTicks 5 * 1000 = 4 * ticksPerSecond := by
  decide

/-! ### Witnesses for the statements' hypotheses -/

/-- V-ENC-3's operands, by field. -/
def goldenFields : Field → Nat
  | .os => 1 | .mux => 6 | .pga => 1 | .mode => 1 | .dr => 4
  | .cmode => 0 | .cpol => 0 | .clat => 0 | .cque => 3

/-- The largest value of every field (V-ENC-2). -/
def fullFields (f : Field) : Nat := 2 ^ Field.width f - 1

theorem witness_inRange_golden : InRange goldenFields := by intro f; cases f <;> decide

theorem witness_inRange_full : InRange fullFields := by intro f; cases f <;> decide

/-- One tick above each limit, one field at a time (V-ENC-F0 to V-ENC-F8). -/
theorem witness_first_offender (f : Field) :
    ∃ v : Field → Nat, 2 ^ Field.width f ≤ v f ∧
      ∀ g, Field.index g < Field.index f → v g < 2 ^ Field.width g := by
  refine ⟨fun g => if g = f then 2 ^ Field.width g else 0, ?_, ?_⟩
  · cases f <;> decide
  · intro g h; cases f <;> revert h <;> cases g <;> decide

theorem witness_not_inRange : ¬ InRange (fun _ => 8) := fun h => absurd (h .os) (by decide)

theorem witness_isolated_fields :
    InRange goldenFields ∧ InRange (fun f => if f = .cque then 0 else goldenFields f) ∧
    ∀ g, g ≠ Field.cque → goldenFields g = if g = .cque then 0 else goldenFields g := by
  refine ⟨witness_inRange_golden, ?_, ?_⟩
  · intro f; cases f <;> decide
  · intro g h; simp [h]

theorem witness_byte_count : ([] : List Byte).length ≠ 2 := by decide

theorem witness_gain_codes :
    (5 : BitVec 3).toNat < 6 ∧ 6 ≤ (6 : BitVec 3).toNat ∧ 6 ≤ (7 : BitVec 3).toNat ∧
    gainEntry 5 = some { fsrMv := 256, lsbPv := 7812500 } ∧
    gainEntry 0 = some { fsrMv := 6144, lsbPv := 187500000 } ∧
    (0 : BitVec 3).toNat < (5 : BitVec 3).toNat := by decide

theorem witness_labels :
    channelLabels[(0 : BitVec 3).toNat]? = some "AIN0-AIN1" ∧
    channelLabels[(7 : BitVec 3).toNat]? = some "AIN3" ∧ "AIN4" ∉ channelLabels ∧
    "" ∉ channelLabels := by decide

theorem witness_raw_bounds : (-32768 : Int) ≤ -32768 ∧ (32767 : Int) ≤ 32767 := by decide

theorem witness_fault_next :
    exec (.gainlut 7) State.reset =
      .next { State.reset with result := some (.fault (.unsupportedGainCode 7)) } := rfl

/-- Each operation that can fault does so from reset. -/
theorem witness_each_fault :
    resultOf (.enc 2 0 0 0 0 0 0 0 0) = some (.fault (.invalidFieldValue .os)) ∧
    resultOf (.gainlut 6) = some (.fault (.unsupportedGainCode 6)) ∧
    resultOf (.scale 1 6) = some (.fault (.unsupportedGainCode 6)) ∧
    resultOf (.chsel "ain0") = some (.fault .unknownChannel) := by decide

theorem witness_decoded_request :
    nextAct (oneAct [] (.request (some 1) { op := 7 })) 0x48 none (.request (some 1) { op := 7 }) [] ∧
    decode { op := 7 } = .ok .convframe := ⟨rfl, by decide⟩

theorem witness_resolved_line :
    nextAct (oneAct [] (.line none (.gainlut (.lit 1)))) 0x48 none (.line none (.gainlut (.lit 1))) [] ∧
    Line.toRequest [] (.gainlut (.lit 1)) = .ok { op := 3, gain := 1 } := ⟨rfl, by decide⟩

/-- A fault on the port, from an operation and from a reserved `op` (R170). -/
theorem witness_faults_on_the_port :
    (∃ t, exec (.chsel "") State.reset = .next t ∧ t.result = some (.fault .unknownChannel)) ∧
    (∃ t, step (oneAct [] (.request none { op := 15 })) = .next t ∧
      t.result = some (.fault (.illegalOp 15))) := ⟨⟨_, rfl, rfl⟩, ⟨_, rfl, rfl⟩⟩

theorem witness_reserved_op :
    nextAct (oneAct [] (.request (some 4) { op := 8 })) 0x48 none (.request (some 4) { op := 8 }) [] ∧
    8 ≤ (8 : BitVec 4).toNat := ⟨rfl, by decide⟩

/-- Two requests of different sequences of one session, the first of which faults: both orders run. -/
theorem witness_two_requests :
    let x : Action := { addr := 0x48, seq := some 0, act := .request (some 1) { op := 3, gain := 7 } }
    let y : Action := { addr := 0x48, seq := some 1, act := .request (some 2) { op := 7 } }
    (∃ t u, step (State.reset.withPending [x, y]) = .next t ∧ step t = .next u) ∧
    (∃ t u, step (State.reset.withPending [y, x]) = .next t ∧ step t = .next u) ∧
    Assoc.rising State.reset.results = true := ⟨⟨_, _, rfl, rfl⟩, ⟨_, _, rfl, rfl⟩, rfl⟩

/-- Two requests of one sequence, both answered OK in either order. -/
theorem witness_two_requests_of_one_sequence :
    let acts := [.request (some 1) { op := 4, raw := 1, gain := 5 }, .request (some 2) { op := 7 }]
    (∃ t u, step (onBus settledDevice readSequence 5 acts) = .next t ∧ step t = .next u ∧
      t.result = some (.ok (.scale 7812500))) ∧
    (∃ t u, step (onBus settledDevice readSequence 5 acts.reverse) = .next t ∧ step t = .next u ∧
      t.result = some (.ok (.convframe [0x00] 2))) :=
  ⟨⟨_, _, rfl, rfl, rfl⟩, ⟨_, _, rfl, rfl, rfl⟩⟩

/-- A line whose operands do not all fit: the first resolves, the second has a value that its port cannot
carry. -/
theorem witness_operand_does_not_fit :
    Line.ports (.scale (.lit 32767) (.lit 8)) = [(.s16, .lit 32767)] ++ (.bits 3, .lit 8) :: [] ∧
    Resolves [] (.s16, .lit 32767) ∧ Operand.value [] (.lit 8) = .ok 8 ∧
    PortKind.carries (.bits 3) 8 = false := ⟨rfl, ⟨_, rfl, by decide⟩, rfl, by decide⟩

/-- A faulted name in the first operand, in a later one, in an ENC line, as a frame and as a length. -/
theorem witness_faulted_name :
    ∀ act ∈ [Act.line none (.gainlut (.port 3 .mux)),
             .line none (.scale (.lit (-32768)) (.port 3 .mux)),
             .line none (.enc (.lit 1) (.lit 9) (.lit 2) (.lit 1) (.lit 4) (.lit 0) (.lit 0) (.lit 0)
               (.port 3 .cque)),
             .write none (.port 3) true, .writeThenRead none (.port 3) (.lit 2) true,
             .writeThenRead none (.lit [0x00]) (.port 3 .rdlen) true],
      step (oneAct [(3, .fault .unknownChannel)] act) = .fault (.requesterStops 3) := by
  intro act h
  simp only [List.mem_cons, List.not_mem_nil, or_false] at h
  rcases h with rfl | rfl | rfl | rfl | rfl | rfl <;> rfl

/-- The operands before the faulted one resolve, at the ends of their ports' ranges. -/
theorem witness_resolves :
    Resolves [] (.s16, .lit (-32768)) ∧ Resolves [] (.bits 3, .lit 7) ∧ Resolves [] (.nat, .lit 0) ∧
    Line.ports (.scale (.lit (-32768)) (.port 3 .mux)) =
      [(.s16, .lit (-32768))] ++ (.bits 3, .port 3 .mux) :: [] :=
  ⟨⟨_, rfl, by decide⟩, ⟨_, rfl, by decide⟩, ⟨_, rfl, by decide⟩, rfl⟩

/-- A request, a line, a write, a failed write, both reads, a failed read, a wait and a cancellation
all answer next states from the same session. -/
theorem witness_every_action_steps :
    ∀ act ∈ [Act.request none { op := 7 }, .line none .convframe, configWrite 1 0xC5 0x83 true,
             configWrite 1 0xC5 0x83 false, conversionRead 1, configRead 1,
             .writeThenRead none (.lit [0x00]) (.lit 2) false, .wait 1, .cancel (some 1)],
      ∃ t, step (onBus settledDevice waitingSequence 4 [act]) = .next t := by
  intro act h
  simp only [List.mem_cons, List.not_mem_nil, or_false] at h
  rcases h with rfl | rfl | rfl | rfl | rfl | rfl | rfl | rfl | rfl <;> exact ⟨_, rfl⟩

theorem witness_duties_kept :
    (onBus settledDevice waitingSequence 5 [conversionRead 6]).disciplined = true ∧
    dutyKept (onBus settledDevice waitingSequence 5 [conversionRead 6]) = true := by decide

/-- R5, R205, R215: a read issued anew without a Configuration write of its own breaks the duties: after a
failed read, and on a device nothing has touched. -/
theorem witness_duty_broken_no_write :
    dutyKept { onBus settledDevice waitingSequence 5 [] with
      sessions := [(0x48, sessionAfter (onBus settledDevice waitingSequence 5
        [.writeThenRead none (.lit [0x00]) (.lit 2) false]))]
      pending := [{ addr := 0x48, seq := some 1, act := conversionRead 6 }] } = false ∧
    dutyKept (oneAct [] (conversionRead 6)) = false := by decide

/-- One tick before the settle time the same read breaks R210. -/
theorem witness_duty_broken_early :
    dutyKept (onBus settledDevice waitingSequence 4 [conversionRead 6]) = false := by decide

/-- A write while a sequence is open breaks R211, whichever sequence it is; so does a read of another. -/
theorem witness_duty_broken_overlap :
    dutyKept (onBus settledDevice waitingSequence 5 [configWrite 1 0xC5 0x83 true]) = false ∧
    dutyKept (onBus settledDevice [⟨some 1, .waiting, false, false⟩] 5 [conversionRead 6]) = false := by decide

theorem witness_settled_flight :
    nextAct (onBus settledDevice waitingSequence 5 [conversionRead 6]) 0x48 (some 0) (conversionRead 6) [] ∧
    ((onBus settledDevice waitingSequence 5 [conversionRead 6]).session 0x48).device.flight =
      some { readyAt := 5, busyUntil := 3, sample := 0xFC18, other := 0x1234, determinate := true } ∧
    5 ≤ (onBus settledDevice waitingSequence 5 [conversionRead 6]).now ∧
    (onBus settledDevice waitingSequence 4 [conversionRead 6]).now < 5 ∧
    ((onBus settledDevice waitingSequence 5 []).session 0x48).opened.find?
      (fun e => decide (e.seq = some 0)) = some ⟨some 0, .waiting, false, false⟩ ∧
    ((onBus settledDevice readSequence 5 []).session 0x48).opened = [] := by
  exact ⟨rfl, rfl, by decide, by decide, by decide, by decide⟩

/-- A settled conversion whose sample no read may rely on, in each of the contents a read can meet. -/
theorem witness_spoilt_flight :
    (Device.spoil settledDevice).flight =
      some { readyAt := 5, busyUntil := 3, sample := 0xFC18, other := 0x1234, determinate := false } ∧
    (Device.spoil settledDevice).configKnown = true ∧
    isContinuous (Device.spoil settledDevice).config = false ∧
    isContinuous { Device.spoil settledDevice with config := 0x4483 }.config = true ∧
    ((onBus (Device.spoil settledDevice) readSequence 5 [conversionRead 6]).session 0x48).opened = [] := by
  decide

/-- R60, R211: such a read returns the open word drawn with the conversion, not its sample. -/
theorem test_spoilt_read :
    namedAfter (onBus (Device.spoil settledDevice) readSequence 5 [conversionRead 6]) 6 =
      some (.ok (.busRead 0x12 0x34)) := by decide

/-- A write while a sequence is open, one before the settle time of an abandoned conversion, a read of a
violated sequence, and a read of none of the open ones. -/
theorem witness_overlap :
    ((onBus settledDevice waitingSequence 4 []).session 0x48).opened ≠ [] ∧
    ((onBus settledDevice [] 4 [configWrite 1 0xC5 0x83 true]).session 0x48).device.flight =
      some { readyAt := 5, busyUntil := 3, sample := 0xFC18, other := 0x1234, determinate := true } ∧
    ((onBus settledDevice [⟨some 0, .waiting, false, true⟩] 5 []).session 0x48).opened.find?
      (fun e => decide (e.seq = some 0)) = some ⟨some 0, .waiting, false, true⟩ ∧
    (∀ e ∈ ((onBus settledDevice [⟨some 1, .waiting, false, false⟩] 5 []).session 0x48).opened,
      e.seq ≠ some 0) := by decide

/-- OS = 1; OS = 0 with MODE = 0; OS = 0 with MODE = 1, at the ends of the byte's ranges. -/
theorem witness_converting_bits :
    128 ≤ (0x80 : Byte).toNat ∧ (0x7E : Byte).toNat % 2 = 0 ∧
    ((0x7F : Byte).toNat < 128 ∧ (0x7F : Byte).toNat % 2 = 1) := by decide

/-- The registers an OS = 0 single-shot write can meet: a word held, continuous mode, and a conversion that
has not settled. -/
theorem witness_idle_write :
    (Device.settle 5 settledDevice).flight = none ∧ isContinuous settledDevice.config = false ∧
    (Device.settle 5 settledDevice).conversionContents = .held ∧
    Device.continuous { settledDevice with config := 0x4483 } = true ∧
    (Device.settle 5 settledDevice).conversionContents ≠ .running ∧ Device.powerUp.configKnown = false ∧
    Device.settle 4 settledDevice = settledDevice ∧ settledDevice.flight ≠ none := by decide

/-- A device whose last conversion has been collected. -/
def collectedDevice : Device :=
  { settledDevice with conversion := 0xFC18, flight := none }

/-- Reads of a settled sample, in an open sequence and after it, and of a device nothing has touched. -/
theorem witness_repeated_reads :
    (onBus collectedDevice readSequence 9 [conversionRead 1, .wait 2, conversionRead 2]).session 0x48 =
      { device := collectedDevice, sequences := readSequence } ∧
    Device.lawful 9 collectedDevice = true ∧ Device.lawful 9 settledDevice = true ∧
    Device.settle 9 collectedDevice = collectedDevice ∧ (Device.settle 9 settledDevice).flight = none ∧
    isContinuous collectedDevice.config = false ∧ collectedDevice.configKnown = true ∧
    ((onBus collectedDevice waitingSequence 9 []).session 0x48).opened = waitingSequence ∧
    ((onBus collectedDevice readSequence 9 []).session 0x48).opened = [] ∧
    Device.settle 0 (State.reset.session 0x48).device = Device.powerUp ∧
    Device.powerUp.flight = none ∧ Device.powerUp.conversionContents = .powerUp := by
  exact ⟨rfl, rfl, by simp [Device.lawful, settledDevice]; omega, rfl, rfl, by decide, rfl, rfl, rfl, rfl,
    rfl, rfl⟩

/-- R60, R205: two reads of a device nothing has touched return one open word, unless it happens to convert
continuously, which no reset value says. -/
theorem test_power_up_reads :
    (Config.powerUpContinuous 0x48 = false → ∀ k,
      namedAfter { oneAct [] (conversionRead 1) with draws := k } 1 =
        some (busRead (Config.powerUpConversion 0x48))) ∧
    (Config.powerUpContinuous 0x48 = true → ∀ k,
      namedAfter { oneAct [] (conversionRead 1) with draws := k } 1 =
        some (busRead (Config.freeWord k))) := by
  have h : ∀ k, namedAfter { oneAct [] (conversionRead 1) with draws := k } 1 =
      some (busRead (if !Config.powerUpContinuous 0x48 then Config.powerUpConversion 0x48
        else Config.freeWord k)) := fun _ => rfl
  exact ⟨fun hc k => by rw [h, hc]; rfl, fun hc k => by rw [h, hc]; rfl⟩

/-- R213: the conversion read of a sequence whose write failed is not issued; actions that are not part of
it stay. -/
theorem test_failed_write_ends_sequence :
    (match step { State.reset with
        pending := (conversionActions 0x48 1 "AIN0" 1 4 9 false true).drop 3 ++
          [{ addr := 0x48, seq := some 2, act := .wait 1 }, { addr := 0x49, act := .wait 3 }]
        results := [(3, .ok (.cfgframe [0x01, 0xC3, 0x83]))] } with
      | .next t => t.pending
      | _ => []) =
    [{ addr := 0x48, seq := some 2, act := .wait 1 }, { addr := 0x49, act := .wait 3 }] := by decide

/-- A write with OS = 1 on a device nothing has touched, in continuous mode, and a wait that is long
enough. -/
theorem witness_triggered_conversion :
    128 ≤ (0xC4 : Byte).toNat ∧ isContinuous (word16 0xC4 0x83) = true ∧
    (Device.settle 0 (State.reset.session 0x48).device).flight = none ∧
    (State.reset.session 0x48).opened = [] ∧
    conversionTicks ((0x83 : Byte).extractLsb' 5 3) + Config.settleMargin ≤
      slowestConversionTicks + Config.settleMargin :=
  ⟨by decide, by decide, rfl, rfl, Nat.add_le_add_right (conversionTicks_le _) _⟩

theorem witness_failed_write :
    nextAct (onBus collectedDevice [] 9 [configWrite 1 0xC5 0x83 false, configRead 2]) 0x48 (some 0)
      (configWrite 1 0xC5 0x83 false) [{ addr := 0x48, seq := some 0, act := configRead 2 }] := rfl

/-- After a failed write, a further read and a wait without a completed write. -/
theorem witness_reached_without_write :
    ∃ u, ReachedWithoutWrite 0x48 (onBus settledDevice [] 9 [conversionRead 1, .wait 2, conversionRead 2]) u ∧
      nextAct u 0x48 (some 0) (conversionRead 2) [] :=
  ⟨_, .more (.more .start rfl (by simp [conversionRead]) rfl) rfl (by simp) rfl, rfl⟩

theorem witness_cancel :
    nextAct (onBus settledDevice waitingSequence 4 [.cancel (some 1)]) 0x48 (some 0) (.cancel (some 1)) [] := rfl

/-- Two states that agree on the session at 0x48 and differ at 0x49. -/
theorem witness_independent_devices :
    let s := onBus collectedDevice readSequence 9 [conversionRead 1]
    let s' := s.setSession 0x49 { device := settledDevice, sequences := waitingSequence }
    s.pending = s'.pending ∧ s.session 0x48 = s'.session 0x48 ∧ s.results = s'.results ∧
    s.now = s'.now ∧ s.draws = s'.draws ∧ s ≠ s' ∧
    (∃ t, step s = .next t) ∧ (∃ t, step s' = .next t) :=
  ⟨rfl, by decide, rfl, rfl, rfl, by decide, ⟨_, rfl⟩, ⟨_, rfl⟩⟩

/-- Every clause of the refused accesses, at the boundaries of the pointer's ranges. -/
theorem witness_refused_accesses :
    step (oneAct [] (.write none (.lit [0x02]) true)) = .refused (.uncoveredRegister 2) ∧
    step (oneAct [] (.writeThenRead none (.lit [0x03]) (.lit 2) true)) =
      .refused (.uncoveredRegister 3) ∧
    step (oneAct [] (.write none (.lit [0x04, 0, 0]) true)) = .refused (.notAnAddress 4) ∧
    step (oneAct [] (.writeThenRead none (.lit [0xFF]) (.lit 2) true)) = .refused (.notAnAddress 0xFF) ∧
    step (oneAct [] (.write none (.lit [0x00, 0x12, 0x34]) true)) = .refused .writeToConversion ∧
    step (oneAct [] (.write none (.lit [0x01, 0x12]) true)) = .refused .transferLength ∧
    step (oneAct [] (.writeThenRead none (.lit [0x00]) (.lit 1) true)) = .refused .transferLength ∧
    step (oneAct [] (.writeThenRead none (.lit [0x01, 0x00]) (.lit 2) true)) =
      .refused .transferLength := ⟨rfl, rfl, rfl, rfl, rfl, rfl, rfl, rfl⟩

theorem witness_no_request : step State.reset = .refused .noRequest := rfl

theorem witness_invariant_reset : Inv State.reset := by constructor <;> rfl

/-- A state with sessions and results that meets the invariant, and steps. -/
theorem witness_invariant_busy :
    Inv { onBus collectedDevice readSequence 9 [conversionRead 1] with
          results := [(1, .ok (.enc 0 0)), (4, .fault .transportError)] } := by
  constructor <;> decide

end Sys2Proof.Machine
end

section
/-! SUPPORT. 00_scope.md R12: an operation's result comes from its request alone. -/

namespace Sys2Proof.Machine

/-- A request's result is fixed before the state is chosen: what decides it (ENC's range check, the
GainTable, the channel table) reads the operands only. -/
theorem exec_result_uniform {i : Instr} (hi : i.wf = true) :
    ∃ r, ∀ s : State, exec i s = .next { s with result := some r } := by
  cases i with
  | enc os mux pga mode dr cmode cpol clat cque =>
    cases h : firstOutOfRange (fieldOperands os mux pga mode dr cmode cpol clat cque) with
    | none => exact ⟨_, execEnc_ok h⟩
    | some f => exact ⟨_, execEnc_fault h⟩
  | decf msb lsb => exact ⟨_, fun _ => rfl⟩
  | decr bytes =>
    have hlen : bytes.length = 2 := by simpa [Instr.wf] using hi
    obtain ⟨high, low, rfl⟩ := List.length_eq_two.1 hlen
    exact ⟨_, execDecr_pair high low⟩
  | gainlut gain =>
    cases h : gainEntry gain with
    | none => exact ⟨_, execGainlut_fault h⟩
    | some e => exact ⟨_, execGainlut_ok h⟩
  | scale raw gain =>
    cases h : gainEntry gain with
    | none => exact ⟨_, execScale_fault h raw⟩
    | some e => exact ⟨_, execScale_ok h raw⟩
  | chsel label =>
    cases h : channelCode label with
    | none => exact ⟨_, execChsel_fault h⟩
    | some mux => exact ⟨_, execChsel_ok h⟩
  | cfgframe msb lsb => exact ⟨_, fun _ => rfl⟩
  | convframe => exact ⟨_, fun _ => rfl⟩

/-- The result an operation places on the port is lawful. -/
theorem lawful_of_exec_next {i : Instr} {s : State} {r : Result}
    (h : exec i s = .next { s with result := some r }) : Result.lawful r = true := by
  obtain ⟨r', hr', ht⟩ := exec_next h
  have heq : r = r' := Option.some.inj (congrArg State.result ht)
  exact heq ▸ hr'

/-- Settles O22: the result does not depend on the state, and at reset the inversion of `exec` says
that it is lawful. -/
theorem operationsAreFunctionsOfTheRequest : Obligations.OperationsAreFunctionsOfTheRequest := by
  intro i hi
  obtain ⟨r, hr⟩ := exec_result_uniform hi
  exact ⟨r, lawful_of_exec_next (hr State.reset), hr⟩

end Sys2Proof.Machine
end

section
/-! SUPPORT. 20_memory.md: the frames that CFGFRAME and CONVFRAME place on their ports, as operands of
the two bus transfers (R51, R55, R78, R92). -/

namespace Sys2Proof.Machine

variable {results : List (Nat × Result)} {m : Nat} {o : Outputs}

/-- Naming an OK result gives its outputs (30_encoding.md R92). -/
theorem namedOutputs_ok (h : Assoc.get m results = some (.ok o)) : namedOutputs results m = .ok o := by
  simp only [namedOutputs, h]

/-- A transfer sends the frame port of the OK result it names (R161, R204). -/
theorem FrameArg.value_port {bytes : List Byte} (h : Assoc.get m results = some (.ok o))
    (hf : Outputs.framePort o = some bytes) : FrameArg.value results (.port m) = .ok bytes := by
  simp only [FrameArg.value, namedOutputs_ok h, hf]

/-- An operand takes the number on the port of the OK result it names (R92). -/
theorem Operand.value_port {p : PortName} {v : Int} (h : Assoc.get m results = some (.ok o))
    (hp : Outputs.port o p = some v) : Operand.value results (.port m p) = .ok v := by
  simp only [Operand.value, namedOutputs_ok h, hp]

/-- A write of the CFGFRAME frame of a word's two bytes carries that word, MSB byte first (R55, R78). -/
theorem writtenWord_cfgFrame (w : Word16) :
    writtenWord (cfgFrame (msbOf w) (lsbOf w)) = .ok w := by
  have hbytes (msb lsb : Byte) : writtenWord (cfgFrame msb lsb) = .ok (word16 msb lsb) := rfl
  rw [hbytes, word16_of_halves]

/-- The frame and the length of CONVFRAME are those of a conversion read (R57, R78, R161). -/
theorem readRegister_convFrame :
    readRegister convFrame (convReadLength.toNat : Int) = .ok .conversion := rfl

/-- Settles O42: each frame port resolves to the bytes of a transfer of its register, whose step is known;
the write carries the word that the bytes are the halves of, and the bytes read are the halves of the
conversion word. -/
theorem framesDriveTheTransfers : Obligations.FramesDriveTheTransfers := by
  intro s a q m n rest
  constructor
  · intro w hres hact
    have hframe : FrameArg.value s.results (.port m) = .ok (cfgFrame (msbOf w) (lsbOf w)) :=
      FrameArg.value_port hres rfl
    exact ⟨_, step_write_ok hact hframe (writtenWord_cfgFrame w), by simp, by simp, by simp⟩
  · intro hres hact
    have hframe : FrameArg.value s.results (.port m) = .ok convFrame := FrameArg.value_port hres rfl
    have hlen : Operand.value s.results (.port m .rdlen) = .ok (convReadLength.toNat : Int) :=
      Operand.value_port hres rfl
    exact ⟨_, _, _, step_conversionRead hact hframe hlen readRegister_convFrame, by simp [busRead],
      word16_of_halves _⟩

/-- A device that holds 0xFC18, a requester that has named a frame of each kind, and a read and a write
by their names. -/
def framesByName : State :=
  { State.reset with
    pending :=
      [{ addr := 0x48, act := .writeThenRead (some 6) (.port 5) (.port 5 .rdlen) true },
       { addr := 0x48, act := .write (some 4) (.port 3) true }]
    results := [(3, .ok (.cfgframe [0x01, 0xC3, 0x83])), (5, .ok (.convframe [0x00] 2))]
    sessions := [(0x48, { Session.powerUp with
      device := { Device.powerUp with conversion := 0xFC18, conversionContents := .held } })] }

/-- The premises of O42 are met, one after the other: the read delivers 0xFC18, high byte first, and the
write then loads 0xC383. -/
theorem witness_frames_drive_the_transfers :
    ∃ t u, step framesByName = .next t ∧ step t = .next u ∧
      nextAct framesByName 0x48 none (.writeThenRead (some 6) (.port 5) (.port 5 .rdlen) true) t.pending ∧
      nextAct t 0x48 none (.write (some 4) (.port 3) true) [] ∧
      Assoc.get 6 t.results = some (.ok (.busRead 0xFC 0x18)) ∧
      (u.session 0x48).device.config = 0xC383 ∧ Assoc.get 4 u.results = some (.ok .busWritten) :=
  ⟨_, _, rfl, rfl, rfl, rfl, rfl, rfl, rfl⟩

end Sys2Proof.Machine
end

section
/-! SUPPORT. 30_encoding.md: the number that the two bytes of a RawSample spell (R54, R77). -/

namespace Sys2Proof.Machine

/-- Bit 15 is the sign, and it is the top bit of the first byte read (30_encoding.md R77). -/
theorem word16_toInt (high low : Byte) :
    (word16 high low).toInt =
      if high.toNat < 128 then (256 * high.toNat + low.toNat : Int)
      else 256 * high.toNat + low.toNat - 65536 := by
  have hlow : low.toNat < 256 := low.isLt
  have hsign : 2 * (256 * high.toNat + low.toNat) < 2 ^ 16 ↔ high.toNat < 128 := by omega
  rw [BitVec.toInt_eq_toNat_cond, word16_toNat]
  simp only [hsign]
  split <;> omega

/-- Settles O5: DECR answers the word of its two bytes, whose pattern and value are the ones it states. -/
theorem decrIsBigEndianSigned : Obligations.DecrIsBigEndianSigned := by
  intro s high low
  exact ⟨word16 high low, execDecr_pair high low s, word16_toNat high low, word16_toInt high low⟩

end Sys2Proof.Machine
end

section
/-! SUPPORT. 40_config_codec.md R112: ENC's verdict, read from the limits of the nine fields. -/

namespace Sys2Proof.Machine

/-- ENC's range check finds a field exactly when some operand is at or above its field's limit (R112). -/
theorem fieldOperands_tooWide {os mux pga mode dr cmode cpol clat cque : Nat} :
    (∃ f, firstOutOfRange (fieldOperands os mux pga mode dr cmode cpol clat cque) = some f) ↔
      2 ≤ os ∨ 8 ≤ mux ∨ 8 ≤ pga ∨ 2 ≤ mode ∨ 8 ≤ dr ∨ 2 ≤ cmode ∨ 2 ≤ cpol ∨ 2 ≤ clat ∨ 4 ≤ cque := by
  rw [← Option.ne_none_iff_exists', ne_eq, fieldOperands_inRange]
  omega

/-- Settles O2: the range check finds a field or none, by the limits, and ENC faults or answers
accordingly. -/
theorem encRejectsExactlyTooWideValues : Obligations.EncRejectsExactlyTooWideValues := by
  intro s os mux pga mode dr cmode cpol clat cque
  constructor
  · intro hwide
    obtain ⟨f, hf⟩ := fieldOperands_tooWide.2 hwide
    exact ⟨f, execEnc_fault hf s⟩
  · intro hfits
    have hnone : firstOutOfRange (fieldOperands os mux pga mode dr cmode cpol clat cque) = none :=
      fieldOperands_inRange.2 (by omega)
    exact ⟨_, _, execEnc_ok hnone s⟩

end Sys2Proof.Machine
end

section
/-! SUPPORT. 60_exceptions.md R171, R178: no operation reads the result port, so a fault that was left
there takes no part in the next request. -/

namespace Sys2Proof.Machine

/-- A request is malformed only as a DECR list that is not two bytes (41_result_codec.md R130). -/
theorem decr_of_not_wf {i : Instr} (hi : i.wf ≠ true) :
    ∃ bytes, i = .decr bytes ∧ bytes.length ≠ 2 := by
  cases i with
  | decr bytes => exact ⟨bytes, rfl, by simpa [Instr.wf] using hi⟩
  | enc | decf | gainlut | scale | chsel | cfgframe | convframe => exact absurd rfl hi

/-- What the result port carries beforehand does not change an operation's answer or refusal. -/
theorem exec_with_result (i : Instr) (s : State) (x : Option Result) :
    exec i { s with result := x } = exec i s := by
  by_cases hi : i.wf = true
  · obtain ⟨r, hr⟩ := exec_result_uniform hi
    rw [hr, hr]
  · obtain ⟨bytes, rfl, hlen⟩ := decr_of_not_wf hi
    rw [execDecr_refused hlen, execDecr_refused hlen]

/-- Settles O23: an answer changes the result port only, and that port is not read by the next
operation. -/
theorem faultsHaveNoOutputAndNoEffect : Obligations.FaultsHaveNoOutputAndNoEffect := by
  intro i s t f hexec hfault
  obtain ⟨r, -, rfl⟩ := exec_next hexec
  obtain rfl : r = .fault f := Option.some.inj hfault
  refine ⟨rfl, rfl, fun t' j hnext => ?_⟩
  rwa [exec_with_result] at hnext

end Sys2Proof.Machine
end

section
/-! SUPPORT. 70_reset_and_hazards.md R212: an action reads and moves the session at its own address only. Two
states that agree there stay so under each operation on State, and with that under a step. -/

namespace Sys2Proof.Machine

/-- What an action at `a` can see of the state is the same in both: the sessions at other addresses may
differ, and so may the result port, which no action reads. -/
structure AgreeAt (a : BitVec 7) (s s' : State) : Prop where
  pending : s.pending = s'.pending
  session : s.session a = s'.session a
  results : s.results = s'.results
  now     : s.now = s'.now
  draws   : s.draws = s'.draws

section
variable {a : BitVec 7} {s s' : State} (h : AgreeAt a s s')
include h

theorem AgreeAt.withPending (rest : List Action) : AgreeAt a (s.withPending rest) (s'.withPending rest) :=
  { h with pending := rfl }

theorem AgreeAt.setResult (r : Result) : AgreeAt a (s.setResult r) (s'.setResult r) := { h with }

theorem AgreeAt.setSession (x : Session) : AgreeAt a (s.setSession a x) (s'.setSession a x) :=
  { h with session := by simp }

theorem AgreeAt.setSequences (l : List Sequence) : AgreeAt a (s.setSequences a l) (s'.setSequences a l) := by
  simpa only [State.setSequences, h.session] using h.setSession _

theorem AgreeAt.drawn : AgreeAt a s.drawn s'.drawn :=
  { h with draws := congrArg (· + 1) h.draws }

theorem AgreeAt.elapse (ticks : Nat) : AgreeAt a (s.elapse ticks) (s'.elapse ticks) :=
  { h with now := congrArg (· + ticks) h.now }

theorem AgreeAt.record (dst : Option Nat) (r : Result) : AgreeAt a (s.record dst r) (s'.record dst r) :=
  match dst with
  | none => h
  | some n => { h with results := congrArg (Assoc.put n r) h.results }

theorem AgreeAt.endSequence (q : Option Nat) : AgreeAt a (s.endSequence a q) (s'.endSequence a q) :=
  { h with pending := congrArg (dropSequence a q) h.pending }

theorem AgreeAt.report (q dst : Option Nat) (r : Result) :
    AgreeAt a (s.report a q dst r) (s'.report a q dst r) :=
  match r with
  | .ok _ => h.record dst _
  | .fault _ => (h.endSequence q).record dst _

/-- The same result on the port moves the sequences of both alike. -/
theorem AgreeAt.conclude_setResult (q dst : Option Nat) (r : Result) :
    AgreeAt a (conclude a q dst (s.setResult r)) (conclude a q dst (s'.setResult r)) := by
  rw [conclude_of_result rfl, conclude_of_result rfl, State.session_setResult, State.session_setResult,
    h.session]
  exact ((h.setResult r).setSequences _).report q dst r

end

/-- An operation that answers in one state answers in every state, with one result for all (R12). -/
theorem exec_answer_uniform {i : Instr} {s t : State} (h : exec i s = .next t) :
    ∃ r, ∀ u : State, exec i u = .next (u.setResult r) := by
  by_cases hi : i.wf = true
  · exact exec_result_uniform hi
  · obtain ⟨bytes, rfl, hlen⟩ := decr_of_not_wf hi
    rw [execDecr_refused hlen] at h
    cases h

/-- A request that is answered in one state is answered in every state, with one result for all: the
decoder, as the block, reads the request alone (R12, R73). -/
theorem present_answer_uniform {a : BitVec 7} {q dst : Option Nat} {req : Request} {s t : State}
    (h : present exec a q dst req s = .next t) :
    ∃ r, ∀ u, present exec a q dst req u = .next (conclude a q dst (u.setResult r)) := by
  cases hd : decode req with
  | ok i =>
    cases he : exec i s with
    | next v =>
      obtain ⟨r, hr⟩ := exec_answer_uniform he
      exact ⟨r, fun u => by simp only [present, hd, hr, concludeOut]⟩
    | fault f => exact absurd he (exec_ne_fault i s f)
    | refused e => simp [present, hd, he, concludeOut] at h
  | error e =>
    cases e with
    | illegalOp op => exact ⟨.fault (.illegalOp op), fun u => by simp only [present, hd]; rfl⟩
    | decrByteCount n => simp [present, hd] at h

/-- Presented in two states that agree, a request is answered in both or in neither. -/
theorem AgreeAt.exists_present {a : BitVec 7} {q dst : Option Nat} {req : Request} {s s' t : State}
    (h : AgreeAt a s s') (hs : present exec a q dst req s = .next t) :
    ∃ t', present exec a q dst req s' = .next t' ∧ AgreeAt a t t' := by
  obtain ⟨r, hr⟩ := present_answer_uniform hs
  cases (hr s).symm.trans hs
  exact ⟨_, hr s', h.conclude_setResult q dst r⟩

theorem step_cancel {s : State} {a : BitVec 7} {q dst : Option Nat} {rest : List Action}
    (h : s.pending = { addr := a, seq := q, act := .cancel dst } :: rest) :
    step s = .next (((s.withPending rest).setSequences a
      (Sequences.finish q (s.session a).sequences)).report a q dst (.fault .cancelled)) := by
  rw [step_cons h]; rfl

/-- An action at one address leaves every session at another as it was: whatever it is, it sets the session at
its own address or none (R212). -/
theorem step_session_other {s t : State} {x : Action} {rest : List Action} {b : BitVec 7}
    (hp : s.pending = x :: rest) (hs : step s = .next t) (hb : b ≠ x.addr) :
    t.session b = s.session b := by
  obtain ⟨y, rest', hp', hcases⟩ := step_next hs
  cases hp.symm.trans hp'
  have hset := State.session_setSession_other hb
  have hseq := State.session_setSequences_other hb
  rcases hcases with ⟨_, _, -, heff⟩ | ⟨_, _, _, _, -, -, -, rfl⟩ | ⟨_, _, _, _, -, -, -, rfl⟩ |
    ⟨_, _, _, _, _, -, -, -, -, rfl⟩ | ⟨_, _, _, _, _, -, -, -, -, rfl⟩ |
    ⟨_, _, _, _, _, _, -, -, -, -, rfl⟩ | ⟨_, -, rfl⟩ | ⟨_, -, rfl⟩
  case inl => simp [heff.is, hseq]
  all_goals simp [hset, hseq]

/-- What an action at `a` does is fixed by what it can see: where one of two states that agree at `a` takes
a step, so does the other, and they still agree (R212). -/
theorem AgreeAt.exists_step {s s' t : State} {x : Action} {rest : List Action} (h : AgreeAt x.addr s s')
    (hp : s.pending = x :: rest) (hs : step s = .next t) :
    ∃ t', step s' = .next t' ∧ AgreeAt x.addr t t' := by
  obtain ⟨y, rest', hp', hcases⟩ := step_next hs
  cases hp.symm.trans hp'
  obtain ⟨a, q, act⟩ := x
  have hrest := h.withPending rest
  have hps' := h.pending.symm.trans hp
  simp only [State.session_withPending, h.session, h.results, h.now, h.draws] at hcases
  rcases hcases with ⟨dst, r, ⟨req, rfl⟩ | ⟨l, rfl⟩, -⟩ | ⟨dst, arg, b, w, rfl, hb, hw, rfl⟩ |
    ⟨dst, arg, b, w, rfl, hb, hw, rfl⟩ | ⟨dst, arg, len, b, n, rfl, hb, hn, hr, rfl⟩ |
    ⟨dst, arg, len, b, n, rfl, hb, hn, hr, rfl⟩ | ⟨dst, arg, len, b, n, r, rfl, hb, hn, hr, rfl⟩ |
    ⟨ticks, rfl, rfl⟩ | ⟨dst, rfl, rfl⟩
  · rw [step_cons hp] at hs
    rw [step_cons hps']
    exact hrest.exists_present hs
  · rw [step_cons hp] at hs
    rw [step_cons hps']
    simp only [perform, State.withPending_results, h.results] at hs ⊢
    split at hs
    · next e _ => cases e <;> cases hs
    · exact hrest.exists_present hs
  · exact ⟨_, step_write_ok hps' hb hw, (hrest.setSession _).drawn.report q dst _⟩
  · exact ⟨_, step_write_failed hps' hb hw, (hrest.setSession _).report q dst _⟩
  · exact ⟨_, step_conversionRead hps' hb hn hr, (hrest.setSession _).drawn.report q dst _⟩
  · exact ⟨_, step_configRead hps' hb hn hr, hrest.drawn.report q dst _⟩
  · exact ⟨_, step_read_failed hps' hb hn hr, (hrest.setSequences _).report q dst _⟩
  · exact ⟨_, step_wait hps', (hrest.setSequences _).elapse ticks⟩
  · exact ⟨_, step_cancel hps', (hrest.setSequences _).report q dst _⟩

/-- Settles O46: a step writes the session at its own address, and reads no other. -/
theorem devicesAreIndependent : Obligations.DevicesAreIndependent := by
  intro s s' t x rest hp hp' hsession hresults hnow hdraws hs
  have h : AgreeAt x.addr s s' := ⟨hp.trans hp'.symm, hsession, hresults, hnow, hdraws⟩
  obtain ⟨t', hs', ht⟩ := h.exists_step hp hs
  exact ⟨fun b hb => step_session_other hp hs hb, t', hs', ht.session, ht.results, ht.pending, ht.now, ht.draws⟩

end Sys2Proof.Machine
end

section
/-! SUPPORT. 30_encoding.md R71 to R73: the decoder read backwards, from what it accepts and from what it
rejects to the request. -/

namespace Sys2Proof.Machine

/-- Whatever decodes is a well-formed instruction of the operation that `op` selects (R72, R130). -/
theorem wf_and_op_of_decode_ok {r : Request} {i : Instr} (h : decode r = .ok i) :
    i.wf = true ∧ r.op = (encode i).op := by
  have hop {k : BitVec 4} (hk : r.op.toNat = k.toNat) : r.op = k := BitVec.eq_of_toNat_eq hk
  unfold decode at h
  split at h
  case h_3 hk =>
    split at h
    · next hlen => cases h; exact ⟨by simpa [Instr.wf] using hlen, hop hk⟩
    · cases h
  case h_9 => cases h
  all_goals next hk => cases h; exact ⟨rfl, hop hk⟩

/-- The decoder reads every well-formed instruction back from the request that stands for it. -/
theorem decode_encode {i : Instr} (hi : i.wf = true) : decode (encode i) = .ok i := by
  cases i with
  | decr bytes => exact Laws.DecodeEncode.decr bytes hi
  | enc | decf | gainlut | scale | chsel | cfgframe | convframe => rfl

/-- A byte list that is not two bytes is rejected by its length (R130, D9). -/
theorem decode_decrByteCount {r : Request} (hop : r.op = 0x2) (hlen : r.bytes.length ≠ 2) :
    decode r = .error (.decrByteCount r.bytes.length) := by
  simp [decode, hop, hlen]

/-- Only a well-formed instruction is decoded from its own request. -/
theorem wf_of_decode_encode {i j : Instr} (h : decode (encode j) = .ok i) : j.wf = true := by
  by_contra hj
  obtain ⟨bytes, rfl, hlen⟩ := decr_of_not_wf hj
  cases (decode_decrByteCount (r := encode (.decr bytes)) rfl hlen).symm.trans h

/-- Settles O26: the decoder inverts the encoder on well-formed instructions, so two of them with one
encoding are what that encoding decodes to. -/
theorem decodeInvertsEncode : Obligations.DecodeInvertsEncode := by
  refine ⟨fun i => decode_encode, fun r i => wf_and_op_of_decode_ok, fun i j hi heq => ?_⟩
  have hdec : decode (encode j) = .ok i := heq ▸ decode_encode hi
  exact Except.ok.inj (hdec.symm.trans (decode_encode (wf_of_decode_encode hdec)))

/-- Settles O27: each of the spec's example requests decodes by evaluation. -/
theorem opCodesSelectOperations : Obligations.OpCodesSelectOperations :=
  ⟨rfl, rfl, rfl, rfl, rfl, rfl, rfl, rfl, rfl⟩

/-- Settles O6: the operation and the decoder check the same length. -/
theorem decrRefusesOtherLengths : Obligations.DecrRefusesOtherLengths := by
  intro s bytes hlen
  refine ⟨execDecr_refused hlen s, ?_⟩
  rintro r hop rfl
  exact decode_decrByteCount hop hlen

end Sys2Proof.Machine
end

section
/-! SUPPORT. The invariant of the whole state: each operation on State keeps it, so each step does. -/

namespace Sys2Proof.Machine

theorem Result.nameable_of_lawful {r : Result} (h : Result.lawful r = true) :
    Result.nameable r = true := by
  simp [Result.nameable, h]

/-- A completed write may or may not begin a sequence; either way all of them stay lawful. -/
theorem Sequences.afterWrite_lawful {q : Option Nat} {w : Word16} {clean : Bool} {l : List Sequence}
    (h : l.all Sequence.lawful = true) :
    (Sequences.afterWrite q w clean l).all Sequence.lawful = true := by
  rw [Sequences.afterWrite]
  split
  · exact Sequences.begin_lawful h
  · exact Sequences.violate_lawful h

theorem Sequences.finish_lawful {q : Option Nat} {l : List Sequence} (h : l.all Sequence.lawful = true) :
    (Sequences.finish q l).all Sequence.lawful = true :=
  Sequences.sublist_lawful (Sequences.finish_sublist q l) h

theorem afterFailedRead_lawful {r : Register} {q : Option Nat} {l : List Sequence}
    (h : l.all Sequence.lawful = true) : (afterFailedRead r q l).all Sequence.lawful = true :=
  match r with
  | .conversion => Sequences.violate_lawful (Sequences.finish_lawful h)
  | .config => Sequences.finish_lawful h

section
variable {s : State} (h : Inv s)
include h

/-- The device at every address is lawful, whether its session is listed or not. -/
theorem Inv.device_lawful (a : BitVec 7) : Device.lawful s.now (s.session a).device = true :=
  State.session_of_all (p := fun x => Device.lawful s.now x.device) (Device.lawful_powerUp _)
    h.devices_lawful a

theorem Inv.session_sequences_lawful (a : BitVec 7) :
    (s.session a).sequences.all Sequence.lawful = true :=
  State.session_of_all (p := fun x => x.sequences.all Sequence.lawful) rfl h.sequences_lawful a

theorem Inv.withPending (rest : List Action) : Inv (s.withPending rest) := { h with }

theorem Inv.drawn : Inv s.drawn := { h with }

theorem Inv.setResult {r : Result} (hr : Result.lawful r = true) : Inv (s.setResult r) :=
  { h with result_lawful := hr }

theorem Inv.endSequence (a : BitVec 7) (q : Option Nat) : Inv (s.endSequence a q) := { h with }

theorem Inv.record (dst : Option Nat) {r : Result} (hr : Result.nameable r = true) :
    Inv (s.record dst r) :=
  match dst with
  | none => h
  | some n =>
    { h with
      results_rising := Assoc.rising_put n r h.results_rising
      results_nameable := Assoc.all_put hr h.results_nameable }

theorem Inv.report (a : BitVec 7) (q dst : Option Nat) {r : Result} (hr : Result.nameable r = true) :
    Inv (s.report a q dst r) :=
  match r with
  | .ok _ => h.record dst hr
  | .fault _ => (h.endSequence a q).record dst hr

theorem Inv.setSession (a : BitVec 7) {x : Session} (hd : Device.lawful s.now x.device = true)
    (hs : x.sequences.all Sequence.lawful = true) : Inv (s.setSession a x) :=
  { h with
    sessions_rising := State.setSession_rising a x h.sessions_rising
    sessions_on_bus := State.setSession_all (fun _ => decide_eq_true a.isLt) h.sessions_on_bus
    sessions_touched := State.setSession_all (fun hx => decide_eq_true hx) h.sessions_touched
    devices_lawful := State.setSession_all (fun _ => hd) h.devices_lawful
    sequences_lawful := State.setSession_all (fun _ => hs) h.sequences_lawful }

theorem Inv.setSequences (a : BitVec 7) {l : List Sequence} (hs : l.all Sequence.lawful = true) :
    Inv (s.setSequences a l) :=
  h.setSession a (h.device_lawful a) hs

/-- A later clock only loosens what `Device.lawful` asks of a conversion in flight. -/
theorem Inv.elapse (ticks : Nat) : Inv (s.elapse ticks) :=
  { h with
    devices_lawful := List.all_eq_true.2 fun e he =>
      Device.lawful_mono (Nat.le_add_right s.now ticks) (List.all_eq_true.1 h.devices_lawful e he) }

end

/-- Settles O35: case by case of what a step can do, each operation it makes on the state keeps the
invariant. -/
theorem stepKeepsTheInvariant : Obligations.StepKeepsTheInvariant := by
  intro s t hinv hstep
  obtain ⟨x, rest, -, hcases⟩ := step_next hstep
  have h := hinv.withPending rest
  have hdev := h.device_lawful x.addr
  have hseq := h.session_sequences_lawful x.addr
  rcases hcases with ⟨dst, r, -, heff⟩ | ⟨dst, _, _, w, -, -, -, rfl⟩ | ⟨dst, _, _, _, -, -, -, rfl⟩ |
    ⟨dst, _, _, _, _, -, -, -, -, rfl⟩ | ⟨dst, _, _, _, _, -, -, -, -, rfl⟩ |
    ⟨dst, _, _, _, _, _, -, -, -, -, rfl⟩ | ⟨ticks, -, rfl⟩ | ⟨dst, -, rfl⟩
  · rw [heff.is]
    exact ((h.setResult heff.lawful).setSequences _ (Sequences.afterResult_lawful hseq)).report _ _ _
      (Result.nameable_of_lawful heff.lawful)
  · exact (h.setSession _ (Device.lawful_configWrite hdev) (Sequences.afterWrite_lawful hseq)).drawn.report
      _ _ _ rfl
  · exact (h.setSession _ (Device.lawful_configWriteFailed hdev)
      (Sequences.violate_lawful (Sequences.finish_lawful hseq))).report _ _ _ rfl
  · exact (h.setSession _ (Device.lawful_afterConversionRead hdev)
      (Sequences.collect_lawful hseq)).drawn.report _ _ _ rfl
  · exact h.drawn.report _ _ _ rfl
  · exact (h.setSequences _ (afterFailedRead_lawful hseq)).report _ _ _ rfl
  · exact (h.setSequences _ (Sequences.await_lawful hseq)).elapse ticks
  · exact (h.setSequences _ (Sequences.finish_lawful hseq)).report _ _ _ rfl

/-- Settles O36: at reset both lists are empty and the port carries nothing. -/
theorem resetMeetsTheInvariant : Obligations.ResetMeetsTheInvariant := witness_invariant_reset

end Sys2Proof.Machine
end

section
/-! SUPPORT. What a completed Configuration write does to the sequences that are open and to the conversion
in flight (20_memory.md R60; 70_reset_and_hazards.md R210, R211). -/

namespace Sys2Proof.Machine

/-- The conversion that a write of `w` starts, on a device that has been settled (R210, R80). -/
def Flight.started (now k : Nat) (clean : Bool) (w : Word16) (d : Device) : Flight :=
  { readyAt := max (settledAt now w) ((d.flight.map Flight.readyAt).getD 0)
    busyUntil := min (Machine.busyUntil now w) ((d.flight.map Flight.busyUntil).getD (Machine.busyUntil now w))
    sample := Config.conversionSample k
    other := Config.freeWord k
    determinate := d.flight.isNone && clean }

/-- A write that makes the device convert puts that conversion in flight. -/
theorem Device.configWrite_starts {now k : Nat} {clean : Bool} {w : Word16} {d : Device}
    (h : startsConverting w = true) :
    (Device.configWrite now k clean w d).flight =
      some (Flight.started now k clean w (Device.settle now d)) := by
  simp [Device.configWrite, h, Flight.started]

/-- With nothing in flight, the conversion settles exactly when R210 says, and may be relied on if the write
is clean. -/
theorem Flight.started_idle {now k : Nat} {clean : Bool} {w : Word16} {d : Device} (h : d.flight = none) :
    Flight.started now k clean w d =
      { readyAt := settledAt now w, busyUntil := Machine.busyUntil now w, sample := Config.conversionSample k
        other := Config.freeWord k, determinate := clean } := by
  simp [Flight.started, h]

/-- Taking away the collected sequences of one number takes away no open one. -/
theorem Sequences.dropCollected_opened (q : Option Nat) (l : List Sequence) :
    (Sequences.dropCollected q l).filter Sequence.isOpen = l.filter Sequence.isOpen := by
  rw [Sequences.dropCollected, List.filter_filter]
  refine List.filter_congr fun e _ => ?_
  cases hc : e.collected <;> simp [Sequence.isOpen, hc]

/-- A write that begins a sequence keeps the open ones, violated, and opens the new one after them (R211). -/
theorem Sequences.begin_opened (q : Option Nat) (clean : Bool) (l : List Sequence) :
    (Sequences.begin q clean l).filter Sequence.isOpen =
      (l.filter Sequence.isOpen).map Sequence.marked ++
        [{ seq := q, phase := .configWritten, collected := false, violated := !clean }] := by
  rw [Sequences.begin, List.filter_append, Sequences.violate_opened, Sequences.dropCollected_opened]
  rfl

end Sys2Proof.Machine
end

section
/-! SUPPORT. 70_reset_and_hazards.md R210, R211: what keeping the duties gives, and that it keeps every
session disciplined. -/

namespace Sys2Proof.Machine

/-- A disciplined session has no open sequence, or one that is not violated and whose conversion is in flight;
and a read may rely on a conversion in flight. -/
theorem Session.disciplined_iff {x : Session} :
    x.disciplined = true ↔
      (x.opened.map Sequence.violated = [] ∨
        x.opened.map Sequence.violated = [false] ∧ x.device.flight ≠ none) ∧
      ∀ f, x.device.flight = some f → f.determinate = true := by
  rcases ho : x.opened with _ | ⟨e, _ | ⟨e', l⟩⟩ <;> cases hf : x.device.flight <;>
    simp [Session.disciplined, ho, hf]

/-- A session stays disciplined while its device keeps the conversion in flight and sequences are only
closed. -/
theorem Session.disciplined_of_sublist {x y : Session} (hx : x.disciplined = true)
    (hd : y.device = x.device)
    (h : (y.opened.map Sequence.violated).Sublist (x.opened.map Sequence.violated)) :
    y.disciplined = true := by
  rw [Session.disciplined_iff] at hx ⊢
  rw [hd]
  obtain ⟨hnone | ⟨hone, hflight⟩, hdet⟩ := hx
  · rw [hnone, List.sublist_nil] at h
    exact ⟨.inl h, hdet⟩
  · rw [hone, List.sublist_singleton] at h
    exact ⟨h.imp_right fun h => ⟨h, hflight⟩, hdet⟩

/-- A session with nothing open and nothing in flight is disciplined. -/
theorem Session.disciplined_of_idle {x : Session} (ho : x.opened = []) (hf : x.device.flight = none) :
    x.disciplined = true := by
  rw [Session.disciplined_iff]
  simp [ho, hf]

/-- The one open sequence of a disciplined session is not violated. -/
theorem Session.not_violated_of_disciplined {x : Session} {e : Sequence} (hx : x.disciplined = true)
    (ho : x.opened = [e]) : e.violated = false := by
  simpa [ho] using (Session.disciplined_iff.1 hx).1.imp_right And.left

@[simp] theorem State.disciplined_drawn (s : State) : s.drawn.disciplined = s.disciplined := rfl

@[simp] theorem State.disciplined_elapse (ticks : Nat) (s : State) :
    (s.elapse ticks).disciplined = s.disciplined := rfl

@[simp] theorem State.disciplined_report (a : BitVec 7) (q dst : Option Nat) (r : Result) (s : State) :
    (s.report a q dst r).disciplined = s.disciplined := by
  simp only [State.disciplined, State.report_sessions]

section
variable {s : State} (h : s.disciplined = true)
include h

theorem State.session_disciplined (a : BitVec 7) : (s.session a).disciplined = true :=
  State.session_of_all (p := Session.disciplined) (by decide) h a

theorem State.disciplined_setSession (a : BitVec 7) {x : Session} (hx : x.disciplined = true) :
    (s.setSession a x).disciplined = true :=
  State.setSession_all (p := fun e => Session.disciplined e.2) (fun _ => hx) h

/-- Closing sequences of a session keeps every session disciplined. -/
theorem State.disciplined_setSequences (a : BitVec 7) {l : List Sequence}
    (hl : ((l.filter Sequence.isOpen).map Sequence.violated).Sublist
      ((s.session a).opened.map Sequence.violated)) : (s.setSequences a l).disciplined = true :=
  State.disciplined_setSession h a
    (Session.disciplined_of_sublist (State.session_disciplined h a) rfl hl)

end

section
variable {s : State} {x : Action} {rest : List Action} {dst : Option Nat} {arg : FrameArg} {len : Operand}
  {ok : Bool} {b : List Byte} {n : Int} {w : Word16}

/-- A write that keeps the duties comes while no sequence is open and nothing is in flight (R210, R211). -/
theorem dutyKept_write (hp : s.pending = x :: rest) (hk : dutyKept s = true)
    (hx : x.act = .write dst arg ok) (hb : FrameArg.value s.results arg = .ok b)
    (hw : writtenWord b = .ok w) :
    (s.session x.addr).opened = [] ∧
      (Device.settle s.now (s.session x.addr).device).flight = none := by
  simpa [dutyKept, hp, hx, hb, hw, usesFault, Session.allClosed_iff] using hk

/-- A conversion read that keeps the duties is of the one open sequence, with known contents, and its
conversion has settled (R5, R210, R211). -/
theorem dutyKept_conversionRead (hp : s.pending = x :: rest) (hk : dutyKept s = true)
    (hx : x.act = .writeThenRead dst arg len ok) (hb : FrameArg.value s.results arg = .ok b)
    (hn : Operand.value s.results len = .ok n) (hr : readRegister b n = .ok .conversion) :
    (∃ e, (s.session x.addr).opened = [e] ∧ e.seq = x.seq) ∧
      (s.session x.addr).device.configKnown = true ∧
      (Device.settle s.now (s.session x.addr).device).flight = none := by
  have h : Session.mayRead x.seq (s.session x.addr) = true ∧
      (Device.settle s.now (s.session x.addr).device).flight = none := by
    simpa [dutyKept, hp, hx, hb, hn, hr, usesFault] using hk
  obtain ⟨hread, hsettled⟩ := h
  rcases ho : (s.session x.addr).opened with _ | ⟨e, _ | ⟨e', l⟩⟩ <;>
    simp_all [Session.mayRead]

end

/-- A write that keeps the duties leaves at most the sequence it begins open, and that one not violated. -/
theorem Session.disciplined_write {now k : Nat} {q : Option Nat} {w : Word16} {x : Session}
    (ho : x.opened = []) (hf : (Device.settle now x.device).flight = none) :
    Session.disciplined
      { device := Device.configWrite now k (Sequences.allClosed x.sequences) w x.device
        sequences := Sequences.afterWrite q w
          ((Device.settle now x.device).flight.isNone && Sequences.allClosed x.sequences) x.sequences } =
      true := by
  have hclosed : Sequences.allClosed x.sequences = true := Session.allClosed_iff.2 ho
  have hfilter : x.sequences.filter Sequence.isOpen = [] := ho
  cases hw : startsConverting w with
  | true =>
    rw [Session.disciplined_iff]
    simp [Session.opened, Sequences.afterWrite, hw, Sequences.begin_opened, hfilter, hf, hclosed,
      Device.configWrite_starts hw, Flight.started_idle hf]
  | false =>
    refine Session.disciplined_of_idle ?_ (by simp [Device.configWrite_idle hw, hf])
    simp [Session.opened, Sequences.afterWrite, hw, Sequences.violate_opened, hfilter]

/-- The conversion read of the one open sequence leaves none open (R211). -/
theorem Session.opened_collect {q : Option Nat} {x : Session} {e : Sequence} (ho : x.opened = [e])
    (hq : e.seq = q) (d : Device) :
    Session.opened { device := d, sequences := Sequences.collect q x.sequences } = [] :=
  Session.opened_nil.2 (Sequences.collect_single ho hq)

/-- A conversion read leaves in flight what had not settled, spoilt (R211). -/
theorem Device.afterConversionRead_flight (now : Nat) (d : Device) :
    (Device.afterConversionRead now d).flight =
      (Device.settle now d).flight.map fun f => { f with determinate := false } := by
  simp [Device.afterConversionRead]

/-- A failed conversion read of the one open sequence leaves none open. -/
theorem Sequences.violate_finish_closed {q : Option Nat} {x : Session} {e : Sequence}
    (ho : x.opened = [e]) (hq : e.seq = q) :
    (Sequences.violate (Sequences.finish q x.sequences)).filter Sequence.isOpen = [] := by
  rw [Sequences.violate_opened, List.map_eq_nil_iff, List.filter_eq_nil_iff]
  intro y hy hopen
  obtain ⟨hmem, hne⟩ := Sequences.mem_finish.1 hy
  have : y ∈ x.opened := Session.mem_opened.2 ⟨hmem, hopen⟩
  rw [ho, List.mem_singleton] at this
  exact hne (this ▸ hq)

/-- Settles O37: case by case of what a step can do, the session at the action's address stays disciplined:
a transfer that keeps the duties leaves nothing open but an unviolated sequence that it begins, and
everything else closes sequences at most. -/
theorem keptDutiesKeepDiscipline : Obligations.KeptDutiesKeepDiscipline := by
  intro s t hdisc hduty hstep
  obtain ⟨x, rest, hp, hcases⟩ := step_next hstep
  have h : (s.withPending rest).disciplined = true := hdisc
  have finish_closes : ((Sequences.finish x.seq (s.session x.addr).sequences).filter
      Sequence.isOpen).Sublist (s.session x.addr).opened := (Sequences.finish_sublist _ _).filter _
  simp only [State.session_withPending] at hcases
  rcases hcases with ⟨dst, r, -, heff⟩ | ⟨dst, _, _, w, hx, hb, hw, rfl⟩ |
    ⟨dst, _, _, w, hx, hb, hw, rfl⟩ | ⟨dst, _, _, _, _, hx, hb, hn, hr, rfl⟩ |
    ⟨dst, _, _, _, _, -, -, -, -, rfl⟩ | ⟨dst, _, _, _, _, r, hx, hb, hn, hr, rfl⟩ | ⟨ticks, -, rfl⟩ |
    ⟨dst, -, rfl⟩
  · rw [heff.is, State.disciplined_report]
    exact State.disciplined_setSequences (s := (s.withPending rest).setResult r) h _
      ((Sequences.afterResult_opened _ _ _).map _)
  · obtain ⟨ho, hf⟩ := dutyKept_write hp hduty hx hb hw
    rw [State.disciplined_report, State.disciplined_drawn]
    exact State.disciplined_setSession h _ (Session.disciplined_write ho hf)
  · obtain ⟨ho, hf⟩ := dutyKept_write hp hduty hx hb hw
    rw [State.disciplined_report]
    refine State.disciplined_setSession h _ (Session.disciplined_of_idle ?_ ?_)
    · rw [ho, List.sublist_nil] at finish_closes
      simp [Session.opened, Sequences.violate_opened, finish_closes]
    · simp [Device.configWriteFailed, hf]
  · obtain ⟨⟨e, ho, hq⟩, -, hf⟩ := dutyKept_conversionRead hp hduty hx hb hn hr
    rw [State.disciplined_report, State.disciplined_drawn]
    exact State.disciplined_setSession h _ (Session.disciplined_of_idle
      (Session.opened_collect ho hq _) (by rw [Device.afterConversionRead_flight, hf]; rfl))
  · rwa [State.disciplined_report]
  · rw [State.disciplined_report]
    refine State.disciplined_setSequences h _ ?_
    cases r with
    | conversion =>
      obtain ⟨⟨e, ho, hq⟩, -⟩ := dutyKept_conversionRead hp hduty hx hb hn hr
      simp [afterFailedRead, Sequences.violate_finish_closed ho hq]
    | config => exact finish_closes.map _
  · rw [State.disciplined_elapse]
    refine State.disciplined_setSequences h _ ?_
    rw [Sequences.await_opened]
    exact .refl _
  · rw [State.disciplined_report]
    exact State.disciplined_setSequences h _ (finish_closes.map _)

/-- Settles O38: no session is listed at reset. -/
theorem resetIsDisciplined : Obligations.ResetIsDisciplined := rfl

end Sys2Proof.Machine
end

section
/-! SUPPORT. 20_memory.md R54, R60; 70_reset_and_hazards.md R210, R211: the word that a read returns, by what
the device is found in once it has been settled, and what the read leaves behind. -/

namespace Sys2Proof.Machine

/-- Settling leaves none in flight only if the settle time has passed (R210). -/
theorem Device.ready_of_settled {now : Nat} {d : Device} {f : Flight} (h : d.flight = some f)
    (hs : (Device.settle now d).flight = none) : f.readyAt ≤ now := by
  by_contra hn
  rw [Device.settle_early h (by omega), h] at hs
  cases hs

section
variable {a : BitVec 7} {now k : Nat} {d : Device}

/-- While a conversion is in flight, the register reads as a free draw (R210, U1). -/
theorem Device.registerWord_inFlight (h : (Device.settle now d).flight ≠ none) :
    Device.registerWord a now k d = Config.freeWord k := by
  simp [Device.registerWord, Option.isSome_iff_ne_none, h]

/-- With none in flight, the register's one word is read (R60). -/
theorem Device.registerWord_held (hf : (Device.settle now d).flight = none)
    (hc : (Device.settle now d).conversionContents = .held) :
    Device.registerWord a now k d = (Device.settle now d).conversion := by
  simp [Device.registerWord, hf, hc]

/-- Where conversions may follow one another, every read is a free draw (N26, R205). -/
theorem Device.registerWord_running (hc : (Device.settle now d).conversionContents = .running) :
    Device.registerWord a now k d = Config.freeWord k := by
  simp [Device.registerWord, hc]

/-- With none in flight, what power-up left is one word, unless the device may convert continuously with
nobody knowing (R205). -/
theorem Device.registerWord_powerUp (hf : (Device.settle now d).flight = none)
    (hc : (Device.settle now d).conversionContents = .powerUp) :
    Device.registerWord a now k d = Config.powerUpConversion a ∨
      (d.configKnown = false ∧ Config.powerUpContinuous a = true) := by
  cases hk : d.configKnown <;> cases hp : Config.powerUpContinuous a <;>
    simp [Device.registerWord, hf, hc, hk, hp]

/-- Once settled, a conversion that nothing violated has left its sample in the register (R210). -/
theorem Device.settle_determinate {f : Flight} (h : d.flight = some f) (hn : f.readyAt ≤ now)
    (hd : f.determinate = true) :
    (Device.settle now d).conversion = f.sample ∧
      (Device.settle now d).conversionContents = .held := by
  simp [Device.settle_ready h hn, hd]

/-- Once settled, a violated conversion has left its open word, in known single-shot contents (R60). -/
theorem Device.settle_violated {f : Flight} (h : d.flight = some f) (hn : f.readyAt ≤ now)
    (hd : f.determinate = false) (hk : d.configKnown = true) (hc : isContinuous d.config = false) :
    (Device.settle now d).conversion = f.other ∧
      (Device.settle now d).conversionContents = .held := by
  simp [Device.settle_ready h hn, hd, hk, hc]

/-- Once settled, a violated conversion may be followed by others in any other contents (N26, R205). -/
theorem Device.settle_violated_running {f : Flight} (h : d.flight = some f) (hn : f.readyAt ≤ now)
    (hd : f.determinate = false) (hk : d.configKnown = false ∨ isContinuous d.config = true) :
    (Device.settle now d).conversionContents = .running := by
  rcases hk with hk | hk <;> simp [Device.settle_ready h hn, hd, hk]

theorem Device.settle_ready_flight {f : Flight} (h : d.flight = some f) (hn : f.readyAt ≤ now) :
    (Device.settle now d).flight = none := by
  rw [Device.settle_ready h hn]

/-- A conversion read changes no register (R60, D27): what is in the Conversion register is what settling
left there. -/
@[simp] theorem Device.afterConversionRead_frame (now : Nat) (d : Device) :
    (Device.afterConversionRead now d).config = d.config ∧
      (Device.afterConversionRead now d).configKnown = d.configKnown ∧
      (Device.afterConversionRead now d).conversion = (Device.settle now d).conversion := by
  simp [Device.afterConversionRead]

/-- Unless the device is known to convert continuously, a conversion read leaves the contents as they are. -/
theorem Device.afterConversionRead_contents (h : d.continuous = false) :
    (Device.afterConversionRead now d).conversionContents =
      (Device.settle now d).conversionContents := by
  simp [Device.afterConversionRead, h]

theorem Device.spoil_idle (h : d.flight = none) : Device.spoil d = d := by
  cases d
  simp_all [Device.spoil]

/-- Unless the device is known to convert continuously, a conversion read of a settled device does nothing
but settle it. -/
theorem Device.afterConversionRead_idle (hf : (Device.settle now d).flight = none)
    (h : d.continuous = false) : Device.afterConversionRead now d = Device.settle now d := by
  simp only [Device.afterConversionRead, Device.settle_continuous, h, Bool.false_eq_true, if_false,
    Device.spoil_idle hf]

/-- OS reads 0 in continuous mode, where a conversion is always being performed (R80). -/
theorem Device.osReadBack_continuous (h : isContinuous d.config = true) :
    Device.osReadBack now k d = 0 := by
  simp [Device.osReadBack, h]

/-- OS reads 1 in single-shot mode with none in flight (R80). -/
theorem Device.osReadBack_idle (h : isContinuous d.config = false)
    (hf : (Device.settle now d).flight = none) : Device.osReadBack now k d = 1 := by
  simp [Device.osReadBack, h, hf]

/-- OS reads 0 while the conversion in flight is being performed (R80, R84). -/
theorem Device.osReadBack_busy {f : Flight} (hf : (Device.settle now d).flight = some f)
    (hb : now < f.busyUntil) : Device.osReadBack now k d = 0 := by
  simp [Device.osReadBack, hf, hb]

end

section
variable {a : BitVec 7} {q : Option Nat} {now k : Nat} {x : Session}

/-- A read that violates nothing, of nothing violated, returns the register's word (R211). -/
theorem Session.conversionWord_trusted
    (h : (∃ e, x.opened.find? (fun e => decide (e.seq = q)) = some e ∧ e.violated = false) ∨
      x.opened = []) :
    Session.conversionWord a q now k x = Device.registerWord a now k x.device := by
  simp [Session.conversionWord, Sequences.trusts_true h]

/-- Any other read is a free draw (R211, U2). -/
theorem Session.conversionWord_untrusted
    (h : (∃ e, x.opened.find? (fun e => decide (e.seq = q)) = some e ∧ e.violated = true) ∨
      (x.opened ≠ [] ∧ ∀ e ∈ x.opened, e.seq ≠ q)) :
    Session.conversionWord a q now k x = Config.freeWord k := by
  simp [Session.conversionWord, Sequences.trusts_false h]

/-- Where the register reads as a free draw, every read does. -/
theorem Session.conversionWord_free (h : Device.registerWord a now k x.device = Config.freeWord k) :
    Session.conversionWord a q now k x = Config.freeWord k := by
  simp [Session.conversionWord, h]

end

/-- A conversion read collects the oldest open sequence of its number and leaves it in Waiting (R211, R217). -/
theorem Sequences.mem_collect {q : Option Nat} {l : List Sequence} {e : Sequence}
    (h : (l.filter Sequence.isOpen).find? (fun e => decide (e.seq = q)) = some e) :
    { e with phase := .waiting, collected := true } ∈ Sequences.collect q l := by
  induction l with
  | nil => simp at h
  | cons x t ih =>
    simp only [Sequences.collect]
    by_cases hx : x.isOpen = true ∧ x.seq = q
    · obtain rfl : x = e := by simpa [List.filter_cons_of_pos hx.1, hx.2] using h
      simp [hx]
    · simp only [hx, if_false, List.mem_cons]
      refine .inr (ih ?_)
      by_cases ho : x.isOpen = true
      · simpa [List.filter_cons_of_pos ho, show x.seq ≠ q from fun hq => hx ⟨ho, hq⟩] using h
      · rwa [List.filter_cons_of_neg ho] at h

/-- Settles O40: DECR puts the two halves of the word together again. -/
theorem deliveredBytesDecodeToTheWord : Obligations.DeliveredBytesDecodeToTheWord := by
  intro s w
  refine ⟨msbOf w, lsbOf w, rfl, ?_⟩
  rw [execDecr_pair, word16_of_halves]
  rfl

/-- Settles O39: the duties and the discipline together say that the read is of the one open sequence, that
this is not violated, and that its conversion has settled and may be relied on. -/
theorem keptDutiesReadTheSample : Obligations.KeptDutiesReadTheSample := by
  intro s a q n rest hact hdisc hduty
  obtain ⟨⟨e, ho, hq⟩, -, hsettled⟩ := dutyKept_conversionRead hact hduty rfl rfl rfl rfl
  have hx := State.session_disciplined hdisc a
  have hv := Session.not_violated_of_disciplined hx ho
  obtain ⟨hopen, hdet⟩ := Session.disciplined_iff.1 hx
  obtain ⟨f, hf⟩ : ∃ f, (s.session a).device.flight = some f := by
    rw [← Option.ne_none_iff_exists']
    simpa [ho] using (hopen.resolve_left (by simp [ho])).2
  have hready := Device.ready_of_settled hf hsettled
  obtain ⟨hsample, hheld⟩ := Device.settle_determinate hf hready (hdet f hf)
  have hfind : (s.session a).opened.find? (fun e => decide (e.seq = q)) = some e := by simp [ho, hq]
  have hword : Session.conversionWord a q s.now s.draws (s.session a) = f.sample := by
    rw [Session.conversionWord_trusted (.inl ⟨e, hfind, hv⟩), Device.registerWord_held hsettled hheld,
      hsample]
  refine ⟨f, _, hf, step_conversionRead hact rfl rfl rfl, ?_, ?_, ?_, ⟨e, ho, hq⟩,
    { e with phase := .waiting, collected := true }, ?_, hq, rfl, rfl, hv⟩
  · simp [hword, busRead]
  · simp [hsample]
  · simpa [busRead] using Session.opened_collect ho hq _
  · simpa [busRead] using Sequences.mem_collect hfind

/-- Settles O43: the word is the one that settling has left in the register, sample or open word, or a free
draw where another conversion may follow. -/
theorem settledReadReturnsTheSample : Obligations.SettledReadReturnsTheSample := by
  intro s a q n rest f hact hf hready htrust
  have hnone := Device.settle_ready_flight hf hready
  have hword := Session.conversionWord_trusted (a := a) (now := s.now) (k := s.draws) htrust
  refine ⟨_, step_conversionRead hact rfl rfl rfl, fun hd => ?_, fun hd hk hc => ?_, fun hd hk => ?_,
    ?_, ?_, fun m hm => ?_, fun b hb => ?_, rfl, rfl, rfl, rfl⟩
  · obtain ⟨hsample, hheld⟩ := Device.settle_determinate hf hready hd
    simp [hword, Device.registerWord_held hnone hheld, hsample, busRead]
  · obtain ⟨hother, hheld⟩ := Device.settle_violated hf hready hd hk hc
    have hcont : (s.session a).device.continuous = false := by simp [Device.continuous, hc]
    simp [hword, Device.registerWord_held hnone hheld, hother, hheld, busRead,
      Device.afterConversionRead_contents hcont]
  · simp [hword, Device.registerWord_running (Device.settle_violated_running hf hready hd hk), busRead]
  · simp [Device.afterConversionRead_flight, hnone, busRead]
  · simp [busRead]
  · rw [State.report_results_other hm]; rfl
  · simp [State.session_setSession_other hb]

/-- Settles O44: settling leaves the conversion in flight, so the read is a free draw, and spoils it. -/
theorem earlyReadIsAFreeDraw : Obligations.EarlyReadIsAFreeDraw := by
  intro s a q n rest f hact hf hearly
  have hsettle := Device.settle_early hf hearly
  have hword : Session.conversionWord a q s.now s.draws (s.session a) = Config.freeWord s.draws :=
    Session.conversionWord_free (Device.registerWord_inFlight (by simp [hsettle, hf]))
  refine ⟨_, step_conversionRead hact rfl rfl rfl, ?_, fun m hm => ?_, rfl, rfl, rfl, rfl, ?_,
    fun e he => ?_, ?_, fun b hb => ?_⟩
  · simp [hword, busRead]
  · rw [State.report_results_other hm]; rfl
  · simp [Device.afterConversionRead_flight, hsettle, hf]
  · obtain ⟨hmem, hopen⟩ := Session.mem_opened.1 he
    exact Sequences.collect_open (by simpa using hmem) hopen
  · simp
  · simp [State.session_setSession_other hb]

/-- Settles O49: the word is the written one but for OS, and OS is read from the settled device. -/
theorem readBackReturnsWrittenFields : Obligations.ReadBackReturnsWrittenFields := by
  rintro s a q n rest d hact hknown rfl
  have hw : Device.configWord s.now s.draws (s.session a).device =
      withOs (Device.osReadBack s.now s.draws (s.session a).device) (s.session a).device.config := by
    simp [Device.configWord, hknown]
  refine ⟨_, _, step_configRead hact rfl rfl rfl, State.record_get_same .., fun m hm => ?_, fun i hi => ?_,
    fun hc => ?_, fun hc hf => ?_, fun f hf hb => ?_, fun b => ?_, rfl, rfl, rfl, rfl⟩
  · rw [State.report_results_other hm]; rfl
  · rw [hw, withOs_getLsbD _ _ hi]
  · rw [hw, withOs_bit15, Device.osReadBack_continuous (by simpa using hc)]; rfl
  · rw [hw, withOs_bit15, Device.osReadBack_idle (by simpa using hc) hf]; rfl
  · rw [hw, withOs_bit15, Device.osReadBack_busy hf hb]; rfl
  · simp

end Sys2Proof.Machine
end

section
/-! SUPPORT. 70_reset_and_hazards.md R210, R217: how a wait and a read move the phases of a session's
sequences. -/

namespace Sys2Proof.Machine

/-- The phase that a wait leaves its own sequence in (R217). -/
def Phase.awaited : Phase → Phase
  | .configWritten => .waiting
  | p => p

/-- A wait keeps the number of every sequence. -/
theorem Sequences.await_eq_map (q : Option Nat) (l : List Sequence) :
    Sequences.await q l =
      l.map fun e => { e with phase := if e.seq = q then e.phase.awaited else e.phase } := by
  refine List.map_congr_left fun e _ => ?_
  obtain ⟨seq, phase, collected, violated⟩ := e
  by_cases hq : seq = q <;> cases phase <;> simp [hq, Phase.awaited]

/-- A wait takes its sequence from ConfigWritten to Waiting and leaves it in any other phase (R217). -/
theorem Sequences.phase_await (q : Option Nat) (d d' : Device) (l : List Sequence) :
    Session.phase q { device := d, sequences := Sequences.await q l } =
      (Session.phase q { device := d', sequences := l }).map Phase.awaited := by
  simp only [Session.phase, Sequences.await_eq_map, List.find?_map, Option.map_map]
  cases h : List.find? (fun e => decide (e.seq = q)) l with
  | none => simpa [Function.comp_def] using h
  | some e =>
    have hq : e.seq = q := by simpa using List.find?_some h
    simp [Function.comp_def, h, hq]

/-- A wait opens and closes nothing. -/
theorem Sequences.opened_await (q : Option Nat) (l : List Sequence) :
    (Sequences.await q l).filter Sequence.isOpen = Sequences.await q (l.filter Sequence.isOpen) := by
  simp only [Sequences.await_eq_map, List.filter_map]
  rfl

/-- After a wait none of its sequences is in ConfigWritten. -/
theorem Sequences.await_phase_ne {q : Option Nat} {l : List Sequence} {e : Sequence}
    (he : e ∈ Sequences.await q l) (hq : e.seq = q) : e.phase ≠ .configWritten := by
  rw [Sequences.await_eq_map, List.mem_map] at he
  obtain ⟨⟨seq, phase, collected, violated⟩, -, rfl⟩ := he
  cases phase <;> simp [show seq = q from hq, Phase.awaited]

/-- A wait leaves the sequences of other numbers as they are. -/
theorem Sequences.mem_await_other {q : Option Nat} {l : List Sequence} {e : Sequence} (hq : e.seq ≠ q) :
    e ∈ Sequences.await q l ↔ e ∈ l := by
  rw [Sequences.await_eq_map, List.mem_map]
  constructor
  · rintro ⟨e', he', rfl⟩
    simpa [show e'.seq ≠ q from hq] using he'
  · exact fun he => ⟨e, he, by simp [hq]⟩

/-- A wait begins, collects, ends and violates nothing. -/
theorem Sequences.await_keeps (q : Option Nat) (l : List Sequence) :
    (Sequences.await q l).map (fun e => (e.seq, e.collected, e.violated)) =
      l.map fun e => (e.seq, e.collected, e.violated) := by
  rw [Sequences.await_eq_map, List.map_map]
  rfl

/-- A sequence in Waiting is still there after a conversion read (R217). -/
theorem Sequences.phase_collect_waiting {q : Option Nat} {d d' : Device} {l : List Sequence}
    (h : Session.phase q { device := d, sequences := l } = some .waiting) :
    Session.phase q { device := d', sequences := Sequences.collect q l } = some .waiting := by
  simp only [Session.phase] at h ⊢
  induction l with
  | nil => simp at h
  | cons e t ih =>
    simp only [Sequences.collect]
    by_cases hq : e.seq = q
    · split
      · simp [hq]
      · simpa [hq] using h
    · rw [if_neg fun hc => hq hc.2]
      rw [List.find?_cons_of_neg (by simp [hq])] at h ⊢
      exact ih h

/-- The sequence that a write begins is in ConfigWritten, none of its number being open before (R217). -/
theorem Sequences.phase_begin {q : Option Nat} {clean : Bool} {l : List Sequence} (d : Device)
    (ho : l.filter Sequence.isOpen = []) :
    Session.phase q { device := d, sequences := Sequences.begin q clean l } = some .configWritten := by
  have hnone : (Sequences.violate (Sequences.dropCollected q l)).find?
      (fun e => decide (e.seq = q)) = none := by
    rw [List.find?_eq_none]
    intro e he
    simp only [Sequences.violate, List.mem_map] at he
    obtain ⟨e', he', rfl⟩ := he
    obtain ⟨hmem, hnot⟩ := Sequences.mem_dropCollected.1 he'
    have hclosed : e'.collected = true := by
      simpa [Sequence.isOpen] using List.filter_eq_nil_iff.1 ho e' hmem
    simp [show e'.seq ≠ q from fun hq => hnot ⟨hq, hclosed⟩]
  simp [Session.phase, Sequences.begin, List.find?_append, hnone]

/-- Settles O52: only the case of a wait moves the clock, and what it does to its session's sequences is what
the lemmas on `Sequences.await` say. -/
theorem onlyWaitsTakeTime : Obligations.OnlyWaitsTakeTime := by
  intro s t x rest hp hstep
  obtain ⟨y, rest', hp', hcases⟩ := step_next hstep
  cases hp.symm.trans hp'
  rcases hcases with ⟨dst, r, ⟨_, hx⟩ | ⟨_, hx⟩, heff⟩ | ⟨_, _, _, _, hx, -, -, rfl⟩ |
    ⟨_, _, _, _, hx, -, -, rfl⟩ | ⟨_, _, _, _, _, hx, -, -, -, rfl⟩ |
    ⟨_, _, _, _, _, hx, -, -, -, rfl⟩ | ⟨_, _, _, _, _, _, hx, -, -, -, rfl⟩ | ⟨ticks, hx, rfl⟩ |
    ⟨_, hx, rfl⟩
  case inr.inr.inr.inr.inr.inr.inl =>
    have hphase := Sequences.phase_await x.seq (s.session x.addr).device (s.session x.addr).device
      (s.session x.addr).sequences
    refine .inl ⟨ticks, hx, rfl, fun b => by simp, fun hc => ?_, fun hc => ?_, fun e he => ?_,
      fun e he => ?_, ?_, fun b hb => ?_, rfl, rfl, rfl, rfl⟩
    · simp [hphase, hc, Phase.awaited]
    · rw [State.session_elapse, State.session_setSequences_same, State.session_withPending, hphase]
      cases hq : (s.session x.addr).phase x.seq with
      | none => rfl
      | some p => cases p <;> simp_all [Phase.awaited]
    · exact Sequences.await_phase_ne (by simpa using he)
    · simpa using Sequences.mem_await_other he
    · simpa using Sequences.await_keeps x.seq (s.session x.addr).sequences
    · simp [State.session_setSequences_other hb]
  case inl.inl | inl.inr => exact .inr ⟨fun ticks => by simp [hx], by simp [heff.is]⟩
  all_goals exact .inr ⟨fun ticks => by simp [hx], by simp⟩

end Sys2Proof.Machine
end

section
/-! SUPPORT. 20_memory.md R60; 70_reset_and_hazards.md R210, R211: the words of a Configuration write, and what
the write does by them. -/

namespace Sys2Proof.Machine

/-- The bytes of a Configuration write carry its word, MSB byte first (R55, R78). -/
theorem writtenWord_config (msb lsb : Byte) : writtenWord [0x01, msb, lsb] = .ok (word16 msb lsb) := rfl

/-- MODE is bit 0 of the first data byte, and 0 is continuous (R24, R83). -/
theorem isContinuous_word16 {msb lsb : Byte} :
    isContinuous (word16 msb lsb) = true ↔ msb.toNat % 2 = 0 := by
  obtain ⟨-, -, -, hmode, -⟩ := unpack_toNat msb lsb
  have hcode : ∀ c : BitVec 1, operatingMode c = .continuous ↔ c.toNat = 0 := by decide
  rw [isContinuous, decide_eq_true_iff, msbOf_word16, lsbOf_word16, hcode, hmode]

/-- OS is bit 7 of the first data byte, and 1 starts a conversion (R24, R80). -/
theorem isTrigger_word16 {msb lsb : Byte} : isTrigger (word16 msb lsb) = true ↔ 128 ≤ msb.toNat := by
  obtain ⟨hos, -⟩ := unpack_toNat msb lsb
  have hcode : ∀ c : BitVec 1, osWrite c = .startConversion ↔ c.toNat = 1 := by decide
  have hlt := msb.isLt
  rw [isTrigger, decide_eq_true_iff, msbOf_word16, lsbOf_word16, hcode, hos]
  omega

/-- A write makes the device convert with OS = 1, or with MODE = 0 whatever OS is (R60, R80, R83). -/
theorem startsConverting_word16 {msb lsb : Byte} :
    startsConverting (word16 msb lsb) = true ↔ 128 ≤ msb.toNat ∨ msb.toNat % 2 = 0 := by
  rw [startsConverting, Bool.or_eq_true, isContinuous_word16, isTrigger_word16, or_comm]

/-- Neither OS = 1 nor MODE = 0: the write starts nothing. -/
theorem not_startsConverting_word16 {msb lsb : Byte} (hos : msb.toNat < 128) (hmode : msb.toNat % 2 = 1) :
    startsConverting (word16 msb lsb) = false := by
  rw [← Bool.not_eq_true, startsConverting_word16]
  omega

/-- The settle time is counted from the write, by the DR code in the top bits of the second byte (R24, R210). -/
theorem settledAt_word16 (now : Nat) (msb lsb : Byte) :
    settledAt now (word16 msb lsb) =
      now + conversionTicks (lsb.extractLsb' 5 3) + Config.settleMargin := by
  simp [settledAt, unpack]

theorem busyUntil_word16 (now : Nat) (msb lsb : Byte) :
    busyUntil now (word16 msb lsb) = now + conversionTicks (lsb.extractLsb' 5 3) := by
  simp [busyUntil, unpack]

section
variable {now k : Nat} {clean : Bool} {w : Word16} {d : Device} {q : Option Nat} {l : List Sequence}

theorem Sequences.afterWrite_starts (h : startsConverting w = true) :
    Sequences.afterWrite q w clean l = Sequences.begin q clean l := by
  simp [Sequences.afterWrite, h]

theorem Sequences.afterWrite_idle (h : startsConverting w = false) :
    Sequences.afterWrite q w clean l = Sequences.violate l := by
  simp [Sequences.afterWrite, h]

/-- Marking violations keeps every number, phase and result. -/
theorem Sequences.violate_keeps (l : List Sequence) :
    (Sequences.violate l).map (fun e => (e.seq, e.phase, e.collected)) =
      l.map fun e => (e.seq, e.phase, e.collected) := by
  rw [Sequences.violate, List.map_map]
  rfl

/-- The sequences before the one that a write begins: those it does not replace, the open ones violated; the
new one is violated unless the write is clean (R211). -/
theorem Sequences.begin_older (q : Option Nat) (clean : Bool) (l : List Sequence) :
    ∃ (older : List Sequence) (v : Bool), Sequences.begin q clean l =
        older ++ [{ seq := q, phase := .configWritten, collected := false, violated := v }] ∧
      older.map (fun e => (e.seq, e.phase, e.collected)) =
        (l.filter fun e => !decide (e.seq = q ∧ e.collected = true)).map
          (fun e => (e.seq, e.phase, e.collected)) ∧
      (∀ e ∈ older, e.isOpen = true → e.violated = true) ∧ (v = false ↔ clean = true) := by
  refine ⟨Sequences.violate (Sequences.dropCollected q l), _, rfl, ?_, fun e => Sequences.violate_open,
    by simp⟩
  rw [Sequences.violate_keeps, Sequences.dropCollected]
  simp

/-- A write may be relied on exactly if nothing is in flight and no sequence is open (R211). -/
theorem clean_iff {x : Session} :
    (d.flight.isNone && Sequences.allClosed x.sequences) = true ↔ d.flight = none ∧ x.opened = [] := by
  rw [Bool.and_eq_true, Option.isNone_iff_eq_none, Session.allClosed_iff]

/-- A write that starts nothing keeps the word of the register, but after contents where conversions may
follow one another (R60). -/
theorem Device.configWrite_idle_keeps (h : startsConverting w = false)
    (hc : (Device.settle now d).conversionContents ≠ .running)
    (hd : (Device.settle now d).continuous = false) :
    (Device.configWrite now k clean w d).conversion = (Device.settle now d).conversion ∧
      (Device.configWrite now k clean w d).conversionContents =
        (Device.settle now d).conversionContents := by
  rw [Device.configWrite]
  simp [h, hc, (Device.settle_continuous now d) ▸ hd]

/-- There it leaves one open word. -/
theorem Device.configWrite_idle_opens (h : startsConverting w = false)
    (hc : (Device.settle now d).conversionContents = .running ∨
      (Device.settle now d).continuous = true) :
    (Device.configWrite now k clean w d).conversion = Config.freeWord k ∧
      (Device.configWrite now k clean w d).conversionContents = .held := by
  rw [Device.configWrite]
  simp only [h, Bool.false_eq_true, if_false, if_pos hc, and_self]

/-- What may be relied on after a write comes of a clean one, with nothing in flight before (R211). -/
theorem Device.clean_of_determinate {f : Flight}
    (hf : (Device.configWrite now k clean w d).flight = some f) (hd : f.determinate = true) :
    ((Device.settle now d).flight.isNone && clean) = true := by
  cases hw : startsConverting w with
  | true =>
    rw [Device.configWrite_starts hw, Option.some.injEq] at hf
    rw [← hf] at hd
    exact hd
  | false =>
    rw [Device.configWrite_idle hw, Option.map_eq_some_iff] at hf
    obtain ⟨g, -, rfl⟩ := hf
    cases hd

end

end Sys2Proof.Machine
end

section
/-! SUPPORT. 70_reset_and_hazards.md R210, R211: the statements about completed writes and reads, each put
together from what the transfer does to the device and to the sequences. -/

namespace Sys2Proof.Machine

/-- What a completed conversion read does to its own session, and what it names. -/
theorem exists_step_conversionRead {s : State} {a : BitVec 7} {q : Option Nat} {n : Nat}
    {rest : List Action} (hact : nextAct s a q (conversionRead n) rest) :
    ∃ t, step s = .next t ∧
      t.session a = { device := Device.afterConversionRead s.now (s.session a).device
                      sequences := Sequences.collect q (s.session a).sequences } ∧
      Assoc.get n t.results = some (busRead (Session.conversionWord a q s.now s.draws (s.session a))) ∧
      t.pending = rest :=
  ⟨_, step_conversionRead hact rfl rfl rfl, by simp, by simp, rfl⟩

/-- What a wait does to its own session, and to the clock. -/
theorem exists_step_wait {s : State} {a : BitVec 7} {q : Option Nat} {ticks : Nat} {rest : List Action}
    (hact : nextAct s a q (.wait ticks) rest) :
    ∃ t, step s = .next t ∧
      t.session a = { device := (s.session a).device
                      sequences := Sequences.await q (s.session a).sequences } ∧
      t.now = s.now + ticks ∧ t.pending = rest :=
  ⟨_, step_wait hact, by simp, rfl, rfl⟩

/-- What a completed Configuration write does to its own session, and to the clock. -/
theorem exists_step_configWrite {s : State} {a : BitVec 7} {q : Option Nat} {n : Nat} {msb lsb : Byte}
    {rest : List Action} (hact : nextAct s a q (configWrite n msb lsb true) rest) :
    ∃ t, step s = .next t ∧
      t.session a =
        { device := Device.configWrite s.now s.draws (Sequences.allClosed (s.session a).sequences)
            (word16 msb lsb) (s.session a).device
          sequences := Sequences.afterWrite q (word16 msb lsb)
            ((Device.settle s.now (s.session a).device).flight.isNone &&
              Sequences.allClosed (s.session a).sequences) (s.session a).sequences } ∧
      t.now = s.now ∧ t.pending = rest :=
  ⟨_, step_write_ok hact rfl (writtenWord_config msb lsb), by simp, rfl, rfl⟩

/-- Settles O41: the word decides whether the write starts a conversion; if it does, a sequence and a flight
begin, and if not, both stay, violated. -/
theorem configWriteReplacesAndTriggers : Obligations.ConfigWriteReplacesAndTriggers := by
  rintro s a q n msb lsb rest d hact rfl
  refine ⟨_, step_write_ok hact rfl (writtenWord_config msb lsb), by simp, by simp, by simp,
    fun m hm => ?_, fun hbits => ⟨?_, ?_⟩, fun hos hmode => ?_, by simp, by simp, fun b hb => ?_,
    rfl, rfl, rfl, rfl⟩
  · rw [State.report_results_other hm]; rfl
  · have hw := startsConverting_word16 (lsb := lsb).2 hbits
    simpa only [State.session_report, State.session_drawn, State.session_setSession_same,
      Sequences.afterWrite_starts hw, clean_iff] using
        Sequences.begin_older q ((Device.settle s.now (s.session a).device).flight.isNone &&
          Sequences.allClosed (s.session a).sequences) (s.session a).sequences
  · have hw := startsConverting_word16 (lsb := lsb).2 hbits
    refine ⟨_, by simpa using Device.configWrite_starts hw, ?_, fun hf => ?_, fun g hg => ?_,
      fun hf => ?_, fun g hg => ?_, rfl, rfl, clean_iff⟩
    · exact settledAt_word16 .. ▸ Nat.le_max_left ..
    · rw [Flight.started_idle hf, settledAt_word16]
    · simp [Flight.started, hg, settledAt_word16]
    · rw [Flight.started_idle hf, busyUntil_word16]
    · simp [Flight.started, hg, busyUntil_word16]
  · have hw := not_startsConverting_word16 (lsb := lsb) hos hmode
    refine ⟨?_, fun e he => ?_, fun hf => ?_, fun f hf => ?_, fun hc hr => ?_, fun hc => ?_⟩
    · simpa [Sequences.afterWrite_idle hw] using Sequences.violate_keeps (s.session a).sequences
    · obtain ⟨hmem, hopen⟩ := Session.mem_opened.1 he
      exact Sequences.violate_open (by simpa [Sequences.afterWrite_idle hw] using hmem) hopen
    · simp [Device.configWrite_idle hw, hf]
    · simp [Device.configWrite_idle hw, hf]
    · simpa using Device.configWrite_idle_keeps hw hr (Bool.and_eq_false_iff.2 hc)
    · simpa using Device.configWrite_idle_opens hw (by simpa [Device.continuous] using hc)
  · simp [State.session_setSession_other hb]

/-- A write while a sequence is open, or while a conversion is in flight, may not be relied on (R211). -/
theorem not_clean {now : Nat} {x : Session}
    (h : x.opened ≠ [] ∨ ∃ f, x.device.flight = some f ∧ now < f.readyAt) :
    ((Device.settle now x.device).flight.isNone && Sequences.allClosed x.sequences) = false := by
  rw [← Bool.not_eq_true, clean_iff]
  rintro ⟨hflight, hopen⟩
  obtain hne | ⟨f, hf, hearly⟩ := h
  · exact hne hopen
  · have := Device.ready_of_settled hf hflight
    omega

/-- Settles O45: the open sequences after a transfer are those that the lemmas on `begin`, `violate` and
`collect` list, and a read of a violated one is not trusted. -/
theorem overlappingSequencesReadFreeDraws : Obligations.OverlappingSequencesReadFreeDraws := by
  constructor
  · intro s a q n msb lsb rest hact
    obtain ⟨t, hst, htx, -⟩ := exists_step_configWrite hact
    refine ⟨t, hst, fun hbits => ?_, fun hos hmode => ?_, fun hover => ⟨fun e he => ?_, fun f hf => ?_⟩⟩
    · have hw := startsConverting_word16 (lsb := lsb).2 hbits
      rw [Session.opened, htx, Sequences.afterWrite_starts hw, Sequences.begin_opened]
      exact ⟨_, rfl⟩
    · have hw := not_startsConverting_word16 (lsb := lsb) hos hmode
      rw [Session.opened, htx, Sequences.afterWrite_idle hw, Sequences.violate_opened]
      rfl
    · obtain ⟨hmem, hopen⟩ := Session.mem_opened.1 he
      rw [htx, not_clean hover] at hmem
      cases hw : startsConverting (word16 msb lsb) with
      | true =>
        rw [Sequences.afterWrite_starts hw, Sequences.begin, List.mem_append, List.mem_singleton] at hmem
        obtain hold | rfl := hmem
        · exact Sequences.violate_open hold hopen
        · rfl
      | false => exact Sequences.violate_open (Sequences.afterWrite_idle hw ▸ hmem) hopen
    · rw [← Bool.not_eq_true]
      intro hdet
      rw [htx] at hf
      have hclean := Device.clean_of_determinate hf hdet
      rw [not_clean hover] at hclean
      cases hclean
  · intro s a q n rest hact
    obtain ⟨t, hst, htx, htw, -⟩ := exists_step_conversionRead hact
    refine ⟨t, hst, ?_, fun hover => ?_⟩
    · rw [Session.opened, htx, Sequences.collect_opened]
      rfl
    · rw [htw, Session.conversionWord_untrusted hover]

/-- A read takes the only open sequence, which is its own, so none is open any more. -/
theorem Sequences.collect_own {q : Option Nat} {x : Session} (hlen : x.opened.length ≤ 1)
    (hown : ∀ e ∈ x.opened, e.seq = q) :
    (Sequences.collect q x.sequences).filter Sequence.isOpen = [] := by
  rw [Sequences.collect_opened, List.map_eq_nil_iff]
  change x.opened.eraseP _ = []
  rcases ho : x.opened with _ | ⟨e, _ | ⟨e', l⟩⟩
  · rfl
  · simp [hown e (by simp [ho])]
  · simp [ho] at hlen

/-- A read of the only open sequence, which is its own and not violated, or while none is open, may rely on
the register. -/
theorem Session.trusted_of_own {q : Option Nat} {x : Session} (hlen : x.opened.length ≤ 1)
    (hown : ∀ e ∈ x.opened, e.seq = q ∧ e.violated = false) :
    (∃ e, x.opened.find? (fun e => decide (e.seq = q)) = some e ∧ e.violated = false) ∨
      x.opened = [] := by
  rcases ho : x.opened with _ | ⟨e, _ | ⟨e', l⟩⟩
  · exact .inr rfl
  · obtain ⟨hq, hv⟩ := hown e (by simp [ho])
    exact .inl ⟨e, by simp [hq], hv⟩
  · simp [ho] at hlen

/-- In a lawful device with nothing in flight, known single-shot contents or those of power-up are not
known to change (R60). -/
theorem Device.steady {now : Nat} {d : Device} (hl : Device.lawful now d = true) (hf : d.flight = none)
    (hd : (d.configKnown = true ∧ isContinuous d.config = false) ∨ d.conversionContents = .powerUp) :
    d.continuous = false ∧ (d.conversionContents = .held ∨ d.conversionContents = .powerUp) := by
  obtain ⟨-, -, hpower, hrunning⟩ := (Device.lawful_none hf).1 hl
  cases hc : d.conversionContents <;> simp_all [Device.continuous]

/-- The word of a device that settles to one with nothing in flight: the word that this one holds, or the one
that power-up left (R60, R205). -/
theorem Device.registerWord_settled {a : BitVec 7} {now k : Nat} {d₀ d : Device}
    (hset : Device.settle now d₀ = d) (hf : d.flight = none) :
    (d.conversionContents = .held → Device.registerWord a now k d₀ = d.conversion) ∧
    (d.conversionContents = .powerUp → Device.registerWord a now k d₀ = Config.powerUpConversion a ∨
      (d.configKnown = false ∧ Config.powerUpContinuous a = true)) := by
  subst hset
  refine ⟨Device.registerWord_held hf, fun hc => ?_⟩
  simpa using Device.registerWord_powerUp hf hc

/-- Settles O47: settled, the device is the same after each read and the wait, so both reads are of what it
holds, or of what power-up left. -/
theorem repeatedReadsReturnTheSameWord : Obligations.RepeatedReadsReturnTheSameWord := by
  rintro s a q m n ticks rest d hact hl hset hf hd hlen hown
  have hcontents := Device.steady (hset ▸ Device.lawful_settle hl) hf hd
  obtain ⟨t, hst, htx, htw, htp⟩ := exists_step_conversionRead hact
  obtain ⟨u, htu, hux, -, hup⟩ := exists_step_wait htp
  obtain ⟨v, huv, hvx, hvw, -⟩ := exists_step_conversionRead hup
  have hopened : Session.opened (u.session a) = [] := by
    rw [Session.opened, hux, Sequences.opened_await, htx,
      Sequences.collect_own hlen fun e he => (hown e he).1]
    rfl
  rw [Session.conversionWord_trusted (Session.trusted_of_own hlen hown)] at htw
  rw [Session.conversionWord_trusted (.inr hopened)] at hvw
  have htd : (t.session a).device = d := by
    rw [htx, ← hset]
    exact Device.afterConversionRead_idle (hset ▸ hf) (by simpa [← hset] using hcontents.1)
  have hud : (u.session a).device = d := by rw [hux, htd]
  have hset' : Device.settle u.now (u.session a).device = d := by rw [hud, Device.settle_none hf]
  have hvd : (v.session a).device = d := by
    rw [hvx, ← hset']
    exact Device.afterConversionRead_idle (hset' ▸ hf) (by simpa [hud] using hcontents.1)
  obtain ⟨hheld, hpower⟩ := Device.registerWord_settled (a := a) (k := s.draws) hset hf
  obtain ⟨hheld', hpower'⟩ := Device.registerWord_settled (a := a) (k := u.draws) hset' hf
  refine ⟨t, u, v, _, _, hst, htu, huv, htw, hvw, ?_, hheld, hpower, hvd⟩
  obtain hc | hc := hcontents.2
  · exact .inl ((hheld' hc).trans (hheld hc).symm)
  · obtain hword' | hopen := hpower' hc
    · exact (hpower hc).imp_left fun hword => hword'.trans hword.symm
    · exact .inr hopen

/-- Settles O58: the write puts its conversion in flight and opens its sequence, both clean; the wait lets it
settle; the read is trusted and finds the sample. -/
theorem triggeredConversionIsRead : Obligations.TriggeredConversionIsRead := by
  intro s a q m n ticks msb lsb rest hact hbits hidle hopen hticks
  have hw := startsConverting_word16 (lsb := lsb).2 hbits
  obtain ⟨t, hst, htx, htnow, htp⟩ := exists_step_configWrite hact
  obtain ⟨u, htu, hux, hunow, hup⟩ := exists_step_wait htp
  obtain ⟨v, huv, hvx, hvw, hvp⟩ := exists_step_conversionRead hup
  rw [hidle, Session.allClosed_iff.2 hopen, Sequences.afterWrite_starts hw] at htx
  have htopen : (t.session a).opened = [⟨q, .configWritten, false, false⟩] := by
    have hnone : (s.session a).sequences.filter Sequence.isOpen = [] := hopen
    rw [Session.opened, htx, Sequences.begin_opened, hnone]
    rfl
  have huopen : (u.session a).opened = [⟨q, .waiting, false, false⟩] := by
    rw [Session.opened, hux, Sequences.opened_await]
    change Sequences.await q (t.session a).opened = _
    simp [htopen, Sequences.await]
  have htphase : (t.session a).phase q = some .configWritten := by
    rw [htx]
    exact Sequences.phase_begin _ hopen
  have huphase : (u.session a).phase q = some .waiting := by
    rw [hux, Sequences.phase_await q _ (t.session a).device]
    simp [htphase, Phase.awaited]
  have hflight : (u.session a).device.flight =
      some (Flight.started s.now s.draws true (word16 msb lsb)
        (Device.settle s.now (s.session a).device)) := by
    rw [hux, htx]
    exact Device.configWrite_starts hw
  rw [Flight.started_idle hidle] at hflight
  have hready : settledAt s.now (word16 msb lsb) ≤ u.now := by
    rw [settledAt_word16, hunow, htnow]
    omega
  obtain ⟨hsample, hheld⟩ := Device.settle_determinate hflight hready rfl
  have hsettled := Device.settle_ready_flight hflight hready
  have htrust := Session.trusted_of_own (q := q) (x := u.session a) (by simp [huopen]) (by simp [huopen])
  rw [Session.conversionWord_trusted htrust, Device.registerWord_held hsettled hheld, hsample] at hvw
  refine ⟨t, u, v, hst, htu, huv, hvw, ?_, htphase, huphase, ?_, ?_, hvp⟩
  · obtain ⟨-, -, hkept⟩ := Device.afterConversionRead_frame u.now (u.session a).device
    rw [hvx]
    exact hkept.trans hsample
  · rw [hvx]
    exact Sequences.phase_collect_waiting huphase
  · rw [hvx]
    exact Session.opened_collect huopen rfl _

end Sys2Proof.Machine
end

section
/-! SUPPORT. 70_reset_and_hazards.md R205, R213, R214, R217: failed transfers, cancellations, and what a device
with unknown contents answers. -/

namespace Sys2Proof.Machine

/-- A failed conversion read or write keeps the open sequences of other numbers, violated (R211). -/
theorem Sequences.marked_mem_opened {q : Option Nat} {x : Session} {e : Sequence} (he : e ∈ x.opened)
    (hq : e.seq ≠ q) :
    e.marked ∈ (Sequences.violate (Sequences.finish q x.sequences)).filter Sequence.isOpen := by
  obtain ⟨hmem, hopen⟩ := Session.mem_opened.1 he
  rw [Sequences.violate_opened]
  exact List.mem_map_of_mem (List.mem_filter.2 ⟨Sequences.mem_finish.2 ⟨hmem, hq⟩, hopen⟩)

/-- A sequence of another number stays when one ends, and it alone. -/
theorem Sequences.mem_finish_other {q : Option Nat} {l : List Sequence} {e : Sequence} (hq : e.seq ≠ q) :
    e ∈ Sequences.finish q l ↔ e ∈ l := by
  simp [Sequences.mem_finish, hq]

/-- A failed read ends its sequence, of whichever register it is (R213). -/
@[simp] theorem phase_afterFailedRead (r : Register) (q : Option Nat) (d : Device) (l : List Sequence) :
    Session.phase q { device := d, sequences := afterFailedRead r q l } = none := by
  cases r <;> simp [afterFailedRead]

/-- Settles O59: the two registers differ in whether the other open sequences are violated. -/
theorem failedReadLeavesTheDevice : Obligations.FailedReadLeavesTheDevice := by
  intro s a q n pointer rest hact hpointer
  obtain ⟨r, hr, hconversion, hconfig⟩ : ∃ r, readRegister [pointer] 2 = .ok r ∧
      (pointer = 0 → r = .conversion) ∧ (pointer = 1 → r = .config) := by
    have hcases : pointer = 0 ∨ pointer = 1 := by bv_omega
    obtain rfl | rfl := hcases
    · exact ⟨.conversion, rfl, by simp⟩
    · exact ⟨.config, rfl, by simp⟩
  refine ⟨_, step_read_failed hact rfl rfl hr, by simp, fun m hm => ?_, by simp, fun h => ⟨fun e he => ?_,
    fun e he hq => ?_⟩, fun h e hq => ?_, by simp, fun b hb => ?_, by simp, by simp, by simp, by simp⟩
  · rw [State.report_results_other hm]; rfl
  · rw [hconversion h] at he
    obtain ⟨hmem, hopen⟩ := Session.mem_opened.1 he
    exact Sequences.violate_open (by simpa [afterFailedRead] using hmem) hopen
  · simpa [hconversion h, Session.opened, afterFailedRead] using Sequences.marked_mem_opened he hq
  · simpa [hconfig h, afterFailedRead] using Sequences.mem_finish_other hq
  · simp [State.session_setSequences_other hb]

/-- Settles O50: a cancellation ends its sequence and sets nothing else. -/
theorem cancelLeavesTheDeviceAlone : Obligations.CancelLeavesTheDeviceAlone := by
  intro s a q n rest hact
  refine ⟨_, step_cancel hact, by simp, fun m hm => ?_, rfl, by simp, fun e hq => ?_, by simp, fun b hb => ?_,
    by simp, by simp, by simp, by simp⟩
  · rw [State.report_results_other hm]; rfl
  · simpa using Sequences.mem_finish_other hq
  · simp [State.session_setSequences_other hb]

/-- What a failed Configuration write leaves behind: unknown contents, where conversions may follow one
another, and none in flight that may be relied on (R205, R213). -/
structure Device.Lost (d : Device) : Prop where
  unknown : d.configKnown = false
  running : d.conversionContents = .running
  spoilt  : ∀ f, d.flight = some f → f.determinate = false

theorem Device.lost_configWriteFailed (now : Nat) (d : Device) :
    (Device.configWriteFailed now d).Lost where
  unknown := rfl
  running := rfl
  spoilt f hf := by
    obtain ⟨g, -, rfl⟩ : ∃ g, (Device.settle now d).flight = some g ∧ { g with determinate := false } = f := by
      simpa [Device.configWriteFailed] using hf
    rfl

section
variable {d : Device} (h : d.Lost)
include h

theorem Device.Lost.settle (now : Nat) : (Device.settle now d).Lost := by
  cases hf : d.flight with
  | none => rwa [Device.settle_none hf]
  | some f =>
    by_cases hn : f.readyAt ≤ now
    · exact ⟨by simp [h.unknown], Device.settle_violated_running hf hn (h.spoilt f hf) (.inl h.unknown),
        by simp [Device.settle_ready_flight hf hn]⟩
    · rwa [Device.settle_early hf (by omega)]

theorem Device.Lost.afterConversionRead (now : Nat) : (Device.afterConversionRead now d).Lost where
  unknown := by simp [h.unknown]
  running := by
    rw [Device.afterConversionRead_contents (by simp [Device.continuous, h.unknown])]
    exact (h.settle now).running
  spoilt f hf := by
    rw [Device.afterConversionRead_flight, Option.map_eq_some_iff] at hf
    obtain ⟨g, -, rfl⟩ := hf
    rfl

/-- Either register of a device with unknown contents reads as a free draw (R205, U3). -/
theorem Device.Lost.registerWord (a : BitVec 7) (now k : Nat) :
    Device.registerWord a now k d = Config.freeWord k :=
  Device.registerWord_running (h.settle now).running

theorem Device.Lost.configWord (now k : Nat) : Device.configWord now k d = Config.freeWord k := by
  simp [Device.configWord, h.unknown]

end

/-- Contents that are unknown stay so until a write at their address completes (R205). -/
theorem step_keeps_lost {s t : State} {x : Action} {rest : List Action} {a : BitVec 7}
    (hp : s.pending = x :: rest) (hx : ¬ (x.addr = a ∧ ∃ dst bytes, x.act = .write dst bytes true))
    (hs : step s = .next t) (h : (s.session a).device.Lost) : (t.session a).device.Lost := by
  by_cases ha : a = x.addr
  · subst ha
    obtain ⟨y, rest', hp', hcases⟩ := step_next hs
    cases hp.symm.trans hp'
    rcases hcases with ⟨_, _, -, heff⟩ | ⟨dst, arg, _, _, hwrite, -, -, rfl⟩ | ⟨_, _, _, _, -, -, -, rfl⟩ |
      ⟨_, _, _, _, _, -, -, -, -, rfl⟩ | ⟨_, _, _, _, _, -, -, -, -, rfl⟩ |
      ⟨_, _, _, _, _, _, -, -, -, -, rfl⟩ | ⟨_, -, rfl⟩ | ⟨_, -, rfl⟩
    · simpa [heff.is] using h
    · exact absurd ⟨rfl, dst, arg, hwrite⟩ hx
    · simpa using Device.lost_configWriteFailed _ _
    · simpa using h.afterConversionRead _
    all_goals simpa using h
  · rwa [step_session_other hp hs ha]

theorem lost_of_reachedWithoutWrite {a : BitVec 7} {s u : State} (h : ReachedWithoutWrite a s u)
    (hs : (s.session a).device.Lost) : (u.session a).device.Lost := by
  induction h with
  | start => exact hs
  | more _ hp hx hstep ih => exact step_keeps_lost hp hx hstep ih

/-- Settles O48: the failed write loses the contents, every later step but a completed write keeps them lost,
and both registers of such a device read as free draws. -/
theorem failedWriteLosesTheContents : Obligations.FailedWriteLosesTheContents := by
  intro s a q m msb lsb rest hact
  have hlost := Device.lost_configWriteFailed s.now (s.session a).device
  refine ⟨_, step_write_failed hact rfl (writtenWord_config msb lsb), by simp, fun k hk => ?_, rfl, by simp,
    fun e he => ?_, fun e he hq => ?_, fun f hf => hlost.spoilt f (by simpa using hf), fun b hb => ?_,
    by simp, by simp, by simp, by simp, ?_⟩
  · rw [State.report_results_other hk]; rfl
  · obtain ⟨hmem, hopen⟩ := Session.mem_opened.1 he
    exact Sequences.violate_open (by simpa using hmem) hopen
  · simpa [Session.opened] using Sequences.marked_mem_opened he hq
  · simp [State.session_setSession_other hb]
  · intro acts u p n act more hreach hact' hread
    have hu : (u.session a).device.Lost := by
      refine lost_of_reachedWithoutWrite hreach ?_
      rw [← State.withPending, State.session_withPending]
      simpa using hlost
    obtain rfl | rfl := hread
    · refine ⟨_, step_configRead hact' rfl rfl rfl, ?_⟩
      simp [hu.configWord, busRead]
    · refine ⟨_, step_conversionRead hact' rfl rfl rfl, ?_⟩
      simp [Session.conversionWord_free (hu.registerWord a _ _), busRead]

end Sys2Proof.Machine
end

section
/-! SUPPORT. 20_memory.md R52, R57: the accesses that are refused, by the pointer and by the length. -/

namespace Sys2Proof.Machine

section
variable {s : State} {a : BitVec 7} {q dst : Option Nat} {rest : List Action} {arg : FrameArg}
  {len : Operand} {b : List Byte} {n : Int} {ok : Bool} {e : Refusal}

theorem step_write_refused (h : nextAct s a q (.write dst arg ok) rest)
    (hb : FrameArg.value s.results arg = .ok b) (hw : writtenWord b = .error e) :
    step s = .refused e := by
  rw [step_cons h]
  simp [perform, hb, busWrite, hw]

theorem step_read_refused (h : nextAct s a q (.writeThenRead dst arg len ok) rest)
    (hb : FrameArg.value s.results arg = .ok b) (hn : Operand.value s.results len = .ok n)
    (hr : readRegister b n = .error e) : step s = .refused e := by
  rw [step_cons h]
  simp [perform, hb, hn, busWriteThenRead, hr]

end

section
variable {pointer : Byte} {data : List Byte} {len : Int}

/-- A pointer that names no register refuses a write whatever follows it (R52). -/
theorem writtenWord_no_register {e : Refusal} (h : registerOf pointer = .error e) :
    writtenWord (pointer :: data) = .error e := by
  simp [writtenWord, h]

theorem readRegister_no_register {e : Refusal} (h : registerOf pointer = .error e) :
    readRegister (pointer :: data) len = .error e := by
  simp [readRegister, h]

/-- The Conversion register takes no data (R28, U9). -/
theorem writtenWord_conversion (h : data ≠ []) :
    writtenWord (0 :: data) = .error .writeToConversion := by
  cases data with
  | nil => exact absurd rfl h
  | cons b l => rfl

/-- The Configuration register takes two bytes and no other number (R57, U11). -/
theorem writtenWord_config_length (h : data.length ≠ 2) :
    writtenWord (1 :: data) = .error .transferLength := by
  rcases data with _ | ⟨msb, _ | ⟨lsb, _ | ⟨b, l⟩⟩⟩
  case cons.cons.nil => exact absurd rfl h
  all_goals rfl

/-- A read of a register sends its pointer alone and takes two bytes (R57, R59, U11). -/
theorem readRegister_length (hp : pointer.toNat ≤ 1) (h : data ≠ [] ∨ len ≠ 2) :
    readRegister (pointer :: data) len = .error .transferLength := by
  have hreg : ∃ r, registerOf pointer = .ok r := by
    have hcases : pointer = 0 ∨ pointer = 1 := by bv_omega
    obtain rfl | rfl := hcases
    · exact ⟨.conversion, rfl⟩
    · exact ⟨.config, rfl⟩
  obtain ⟨r, hr⟩ := hreg
  have hlen : ¬ (data = [] ∧ len = 2) := by tauto
  simp only [readRegister, hr, if_neg hlen]

end

/-- Settles O51: the pointer map and the length rules refuse before the transfer touches the device. -/
theorem unspecifiedAccessesAreRefused : Obligations.UnspecifiedAccessesAreRefused := by
  intro s a q dst pointer data len ok rest
  have hpointer {e : Refusal} (hreg : registerOf pointer = .error e)
      (hact : nextAct s a q (.write dst (.lit (pointer :: data)) ok) rest ∨
        nextAct s a q (.writeThenRead dst (.lit (pointer :: data)) (.lit len) ok) rest) :
      step s = .refused e := by
    obtain hact | hact := hact
    · exact step_write_refused hact rfl (writtenWord_no_register hreg)
    · exact step_read_refused hact rfl rfl (readRegister_no_register hreg)
  refine ⟨fun hact => ⟨fun hp => ?_, fun hp => ?_⟩, fun hact => ⟨fun hp hd => ?_, fun hp hd => ?_⟩,
    fun hact hp hd => ?_⟩
  · exact hpointer (registerOf_uncovered hp) hact
  · exact hpointer (registerOf_notAnAddress hp) hact
  · exact step_write_refused hact rfl (hp ▸ writtenWord_conversion hd)
  · exact step_write_refused hact rfl (hp ▸ writtenWord_config_length hd)
  · exact step_read_refused hact rfl rfl (readRegister_length hp hd)

end Sys2Proof.Machine
end

section
/-! SUPPORT. 60_exceptions.md R170 to R175: which results each operation gives. -/

namespace Sys2Proof.Machine

/-- Two answers of one state are the same only with one result. -/
theorem result_inj {s : State} {r r' : Result}
    (h : (.next { s with result := some r } : Out) = .next { s with result := some r' }) : r = r' := by
  injection h with h
  exact Option.some.inj (congrArg State.result h)

/-- The results that an operation can place on the port: its own outputs, or its own kind of fault (R174). -/
def Answers : Instr → Result → Prop
  | .enc _ _ _ _ _ _ _ _ _, r => (∃ msb lsb, r = .ok (.enc msb lsb)) ∨ ∃ f, r = .fault (.invalidFieldValue f)
  | .decf _ _, r => ∃ c, r = .ok (.decf c)
  | .decr _, r => ∃ raw, r = .ok (.decr raw)
  | .gainlut gain, r =>
    (∃ fsrMv lsbPv, r = .ok (.gainlut fsrMv lsbPv)) ∨ r = .fault (.unsupportedGainCode gain)
  | .scale _ gain, r => (∃ v, r = .ok (.scale v)) ∨ r = .fault (.unsupportedGainCode gain)
  | .chsel _, r => (∃ mux, r = .ok (.chsel mux)) ∨ r = .fault .unknownChannel
  | .cfgframe _ _, r => ∃ frame, r = .ok (.cfgframe frame)
  | .convframe, r => ∃ frame rdlen, r = .ok (.convframe frame rdlen)

/-- Every operation answers so. -/
theorem answers_of_exec {i : Instr} {s : State} {r : Result}
    (h : exec i s = .next { s with result := some r }) : Answers i r := by
  have hr {r' : Result} (he : exec i s = .next { s with result := some r' }) : r = r' :=
    result_inj (h.symm.trans he)
  cases i with
  | enc os mux pga mode dr cmode cpol clat cque =>
    cases hc : firstOutOfRange (fieldOperands os mux pga mode dr cmode cpol clat cque) with
    | none => exact .inl ⟨_, _, hr (execEnc_ok hc s)⟩
    | some f => exact .inr ⟨f, hr (execEnc_fault hc s)⟩
  | decf msb lsb => exact ⟨_, hr rfl⟩
  | decr bytes =>
    by_cases hlen : bytes.length = 2
    · obtain ⟨high, low, rfl⟩ := List.length_eq_two.1 hlen
      exact ⟨_, hr (execDecr_pair high low s)⟩
    · rw [execDecr_refused hlen] at h
      cases h
  | gainlut gain =>
    cases hg : gainEntry gain with
    | none => exact .inr (hr (execGainlut_fault hg s))
    | some e => exact .inl ⟨_, _, hr (execGainlut_ok hg s)⟩
  | scale raw gain =>
    cases hg : gainEntry gain with
    | none => exact .inr (hr (execScale_fault hg raw s))
    | some e => exact .inl ⟨_, hr (execScale_ok hg raw s)⟩
  | chsel label =>
    cases hc : channelCode label with
    | none => exact .inr (hr (execChsel_fault hc s))
    | some mux => exact .inl ⟨mux, hr (execChsel_ok hc s)⟩
  | cfgframe msb lsb => exact ⟨_, hr rfl⟩
  | convframe => exact ⟨_, _, hr rfl⟩

/-- Only DECR answers a RawSample. -/
theorem op_of_answers_decr {i : Instr} {raw : Word16} (h : Answers i (.ok (.decr raw))) :
    (encode i).op = 0x2 := by
  cases i <;> simp_all [Answers, encode]

/-- Only SCALE answers a reading. -/
theorem op_of_answers_scale {i : Instr} {v : BitVec 64} (h : Answers i (.ok (.scale v))) :
    (encode i).op = 0x4 := by
  cases i <;> simp_all [Answers, encode]

/-- Settles O24: a fault among an operation's answers is of its own kind, or there is none. -/
theorem eachOperationRaisesOnlyItsFault : Obligations.EachOperationRaisesOnlyItsFault := by
  intro i s t f hexec hfault
  obtain ⟨r, -, rfl⟩ := exec_next hexec
  obtain rfl : r = .fault f := Option.some.inj hfault
  have h := answers_of_exec hexec
  cases i with
  | enc | gainlut | scale | chsel => simpa [Answers] using h
  | decf | decr | cfgframe | convframe => simp [Answers] at h

end Sys2Proof.Machine
end

section
/-! SUPPORT. 70_reset_and_hazards.md R213, R217: what a request leaves in the state, read off
`RequestEffect`. -/

namespace Sys2Proof.Machine

section
variable {a : BitVec 7} {q dst : Option Nat} {r : Result} {s t : State} (h : RequestEffect a q dst r s t)
include h

theorem RequestEffect.result : t.result = some r := by simp [h.is]

theorem RequestEffect.now : t.now = s.now := by simp [h.is]

theorem RequestEffect.draws : t.draws = s.draws := by simp [h.is]

theorem RequestEffect.results : t.results = (s.record dst r).results := by
  cases dst <;> simp [h.is]

theorem RequestEffect.session : t.session a =
    { device := (s.session a).device, sequences := Sequences.afterResult q r (s.session a).sequences } := by
  simp [h.is]

theorem RequestEffect.session_other {b : BitVec 7} (hb : b ≠ a) : t.session b = s.session b := by
  simp [h.is, State.session_setSequences_other hb]

theorem RequestEffect.device (b : BitVec 7) : (t.session b).device = (s.session b).device := by
  simp [h.is]

theorem RequestEffect.pending_ok {o : Outputs} (hr : r = .ok o) : t.pending = s.pending := by
  simp [h.is, hr]

theorem RequestEffect.pending_fault {f : BlockFault} (hr : r = .fault f) :
    t.pending = dropSequence a q s.pending := by
  simp [h.is, hr]

theorem RequestEffect.named {n : Nat} (hn : dst = some n) : Assoc.get n t.results = some r := by
  simp [h.results, hn]

theorem RequestEffect.named_other {m : Nat} (hm : dst ≠ some m) :
    Assoc.get m t.results = Assoc.get m s.results := by
  rw [h.results]
  cases dst with
  | none => rfl
  | some n => exact Assoc.get_put_other (fun e => hm (congrArg some e.symm)) _ _

end

/-- What stands on the port is the result that the request has been answered with. -/
theorem RequestEffect.result_unique {a : BitVec 7} {q dst : Option Nat} {r r' : Result} {s t : State}
    (h : RequestEffect a q dst r s t) (hr : t.result = some r') : r = r' :=
  Option.some.inj (h.result.symm.trans hr)

section
variable {s : State} {a : BitVec 7} {q dst : Option Nat} {req : Request} {rest : List Action} {i : Instr}

/-- A request that decodes is answered with the result of its operation. -/
theorem exists_step_request (hact : nextAct s a q (.request dst req) rest) (hd : decode req = .ok i) :
    ∃ t r, step s = .next t ∧
      exec i { s with pending := rest } = .next { s with pending := rest, result := some r } ∧
      RequestEffect a q dst r (s.withPending rest) t := by
  obtain ⟨hwf, -⟩ := wf_and_op_of_decode_ok hd
  obtain ⟨r, hr⟩ := exec_result_uniform hwf
  have hstep : step s = .next (conclude a q dst ((s.withPending rest).setResult r)) := by
    rw [step_cons hact]
    simp only [perform, present, hd, hr]
    rfl
  exact ⟨_, r, hstep, hr _, lawful_of_exec_next (hr s), conclude_of_result rfl a q dst⟩

/-- A request with a reserved `op` is answered with IllegalOp (R73). -/
theorem exists_step_illegalOp (hact : nextAct s a q (.request dst req) rest) (hop : 8 ≤ req.op.toNat) :
    ∃ t, step s = .next t ∧
      RequestEffect a q dst (.fault (.illegalOp req.op)) (s.withPending rest) t := by
  have hd : decode req = .error (.illegalOp req.op) := decode_illegalOp.2 ⟨rfl, hop⟩
  have hstep : step s =
      .next (conclude a q dst ((s.withPending rest).setResult (.fault (.illegalOp req.op)))) := by
    rw [step_cons hact]
    simp only [perform, present, hd]
    rfl
  exact ⟨_, hstep, by simpa [Result.lawful] using hop, conclude_of_result rfl a q dst⟩

/-- An answered request or line leaves a request's effect, whatever it is. -/
theorem requestEffect_of_step {t : State} {x : Action} (hp : s.pending = x :: rest)
    (hx : (∃ dst r, x.act = .request dst r) ∨ ∃ dst l, x.act = .line dst l) (hs : step s = .next t) :
    ∃ dst r, RequestEffect x.addr x.seq dst r (s.withPending rest) t := by
  rw [step_cons hp] at hs
  obtain ⟨dst, r, hact⟩ | ⟨dst, l, hact⟩ := hx
  · simp only [perform, hact] at hs
    exact ⟨dst, present_next hs⟩
  · simp only [perform, hact] at hs
    split at hs
    · next e _ => cases e <;> cases hs
    · exact ⟨dst, present_next hs⟩

end

/-- Settles O28: `present` hands a decoded request to `exec`, and what follows an answer is `conclude`. -/
theorem stepRunsTheDecodedRequest : Obligations.StepRunsTheDecodedRequest := by
  intro s a q dst r rest i hact hd
  have hpresent : step s = concludeOut a q dst (exec i (s.withPending rest)) := by
    rw [step_cons hact]
    simp only [perform, present, hd]
  rw [hpresent, ← State.withPending]
  cases exec i (s.withPending rest) <;> rfl

/-- Settles O25: the result is lawful, whether an operation or a step has left it. -/
theorem resultPortEncodesTheResult : Obligations.ResultPortEncodesTheResult := by
  intro s t res hres hfrom
  have hlawful : Result.lawful res = true := by
    obtain ⟨i, hexec⟩ | ⟨a, q, dst, r, rest, hact, hstep⟩ := hfrom
    · obtain ⟨r, hr, rfl⟩ := exec_next hexec
      exact Option.some.inj hres ▸ hr
    · obtain ⟨_, r', heff⟩ := requestEffect_of_step hact (.inl ⟨dst, r, rfl⟩) hstep
      exact heff.result_unique hres ▸ heff.lawful
  cases res with
  | ok o => exact ⟨rfl, rfl, rfl, rfl⟩
  | fault f =>
    refine ⟨rfl, rfl, ?_⟩
    cases f with
    | invalidFieldValue field => cases field <;> exact ⟨rfl, rfl⟩
    | unknownChannel => exact ⟨rfl, rfl⟩
    | unsupportedGainCode gain =>
      have hlow : 6 ≤ gain.toNat := by simpa [Result.lawful] using hlawful
      have hhigh := gain.isLt
      exact ⟨rfl, rfl, by omega⟩
    | illegalOp op => exact ⟨rfl, rfl, by simpa [Result.lawful] using hlawful⟩
    | transportError => cases hlawful
    | cancelled => cases hlawful

/-- Settles O30: the fault ends the request's sequence and is recorded. -/
theorem reservedOpsAreIllegal : Obligations.ReservedOpsAreIllegal := by
  intro s a q n r rest hact hop
  obtain ⟨t, hstep, heff⟩ := exists_step_illegalOp hact hop
  refine ⟨t, hstep, heff.result, rfl, rfl, heff.named rfl, fun m hm => heff.named_other (by simpa using hm.symm),
    heff.device a, ?_, fun e hq => ?_, fun b hb => heff.session_other hb, heff.pending_fault rfl, heff.now,
    heff.draws⟩
  · simp [heff.session]
  · simpa [heff.session] using Sequences.mem_finish_other hq

/-- Settles O31: a request's effect sets the sequences of its session, the port, its name and the list. -/
theorem requestsReachNoDevice : Obligations.RequestsReachNoDevice := by
  intro s t x rest hp hx hstep
  obtain ⟨dst, r, heff⟩ := requestEffect_of_step hp hx hstep
  exact ⟨heff.device, fun b hb => heff.session_other hb, heff.now, heff.draws,
    fun o ho => heff.pending_ok (heff.result_unique ho), fun f hf => heff.pending_fault (heff.result_unique hf)⟩

/-- An answered DECR moves the oldest collected sequence in Waiting of its number (R217). -/
theorem Sequences.decoded_movesFirst (q : Option Nat) (l : List Sequence) :
    MovesFirst (fun e => decide (e.seq = q ∧ e.collected = true ∧ e.phase = .waiting))
      (fun e => [{ e with phase := .sampleRead }]) l (Sequences.decoded q l) := by
  induction l with
  | nil => exact .inr ⟨by simp, rfl⟩
  | cons e t ih =>
    rw [Sequences.decoded]
    split
    · next he => exact .inl ⟨[], e, t, rfl, by simp, by simpa using he, rfl⟩
    · next he =>
      obtain ⟨before, m, after, rfl, hbefore, hm, heq⟩ | ⟨hnone, heq⟩ := ih
      · refine .inl ⟨e :: before, m, after, rfl, ?_, hm, by rw [heq]; rfl⟩
        exact List.forall_mem_cons.2 ⟨decide_eq_false he, hbefore⟩
      · exact .inr ⟨List.forall_mem_cons.2 ⟨decide_eq_false he, hnone⟩, by rw [heq]⟩

/-- An answered SCALE takes away the oldest sequence in SampleRead of its number (R217). -/
theorem Sequences.output_movesFirst (q : Option Nat) (l : List Sequence) :
    MovesFirst (fun e => decide (e.seq = q ∧ e.phase = .sampleRead)) (fun _ => []) l
      (Sequences.output q l) := by
  rw [Sequences.output]
  obtain hsame | ⟨e, before, after, hbefore, hm, hl, heq⟩ :=
    List.exists_or_eq_self_of_eraseP (fun e : Sequence => decide (e.seq = q ∧ e.phase = .sampleRead)) l
  · exact .inr ⟨fun e he => by simpa using List.eraseP_eq_self_iff.1 hsame e he, hsame⟩
  · exact .inl ⟨before, e, after, hl, fun e he => by simpa using hbefore e he, hm,
      by rw [heq, List.append_nil]⟩

/-- Settles O57: the result is the operation's, and what it does to the sequences is what the lemmas on
`decoded`, `output` and `finish` say. -/
theorem requestsAreNamedAndMoveThePhase : Obligations.RequestsAreNamedAndMoveThePhase := by
  intro s a q dst r rest i hact hd
  obtain ⟨t, res, hstep, hexec, heff⟩ := exists_step_request hact hd
  refine ⟨t, res, hstep, hexec, heff.result, fun n => heff.named, fun m => heff.named_other,
    fun f hf => ⟨heff.pending_fault hf, ?_, fun e => ?_⟩, fun o => heff.pending_ok, fun raw hraw => ?_,
    fun v hv => ?_, fun o ho hdecr hscale => ?_, heff.device, fun b => heff.session_other⟩
  · simp [heff.session, hf]
  · simp [heff.session, hf, Sequences.mem_finish]
  · simpa [heff.session, hraw] using Sequences.decoded_movesFirst q (s.session a).sequences
  · simpa [heff.session, hv] using Sequences.output_movesFirst q (s.session a).sequences
  · rw [heff.session, ho]
    cases o <;> simp_all [Sequences.afterResult]

/-- A FAULT report ends the sequence of its action: of a numbered one nothing is left on the list (R213). -/
theorem ended_of_report {a : BitVec 7} {q dst : Option Nat} {f : BlockFault} {s : State}
    (hphase : (s.session a).phase q = none) :
    ((s.report a q dst (.fault f)).session a).phase q = none ∧
      (s.report a q dst (.fault f)).pending.Sublist s.pending ∧
      ∀ k, q = some k → ∀ y, y ∈ (s.report a q dst (.fault f)).pending ↔
        y ∈ s.pending ∧ ¬ (y.addr = a ∧ y.seq = some k) := by
  refine ⟨by simpa using hphase, ?_, ?_⟩
  · rw [State.report_fault_pending]
    cases q with
    | none => exact .refl _
    | some k => exact List.filter_sublist
  · rintro k rfl y
    rw [State.report_fault_pending, mem_dropSequence]

/-- An action without a number takes nothing else off the list. -/
theorem report_unnumbered_pending {a : BitVec 7} {q dst : Option Nat} {r : Result} {s : State}
    (hq : q = none) : (s.report a q dst r).pending = s.pending := by
  subst hq
  cases r with
  | ok o => simp
  | fault f => simp

/-- Settles O60: each of the ending actions reports a FAULT from a state in which its sequence is in Idle. -/
theorem endedSequencesIssueNothingMore : Obligations.EndedSequencesIssueNothingMore := by
  intro s t x rest hp hstep
  obtain ⟨y, rest', hp', hcases⟩ := step_next hstep
  cases hp.symm.trans hp'
  rcases hcases with ⟨dst, r, hreq, heff⟩ | ⟨_, _, _, _, hx, -, -, rfl⟩ | ⟨_, _, _, _, hx, -, -, rfl⟩ |
    ⟨_, _, _, _, _, hx, -, -, -, rfl⟩ | ⟨_, _, _, _, _, hx, -, -, -, rfl⟩ |
    ⟨_, _, _, _, _, _, hx, -, -, -, rfl⟩ | ⟨_, hx, rfl⟩ | ⟨_, hx, rfl⟩
  · refine ⟨fun hend => ?_, fun hq => heff.is ▸ report_unnumbered_pending hq⟩
    have hfault : ∃ f, t.result = some (.fault f) := by
      obtain ⟨_, hx⟩ | ⟨_, hx⟩ := hreq <;> simpa [hx] using hend
    obtain ⟨f, hf⟩ := hfault
    obtain rfl := heff.result_unique hf
    rw [heff.is]
    exact ended_of_report (by simp)
  · exact ⟨fun hend => by simp [hx] at hend, report_unnumbered_pending⟩
  · exact ⟨fun _ => ended_of_report (by simp), report_unnumbered_pending⟩
  · exact ⟨fun hend => by simp [hx] at hend, report_unnumbered_pending⟩
  · exact ⟨fun hend => by simp [hx] at hend, report_unnumbered_pending⟩
  · exact ⟨fun _ => ended_of_report (by simp), report_unnumbered_pending⟩
  · exact ⟨fun hend => by simp [hx] at hend, fun _ => rfl⟩
  · exact ⟨fun _ => ended_of_report (by simp), report_unnumbered_pending⟩

end Sys2Proof.Machine
end

section
/-! SUPPORT. 20_memory.md R61, R183: when the effects of two requests can be taken in either order. -/

namespace Sys2Proof.Machine

/-- Two names can be recorded in either order. -/
theorem Assoc.put_comm {α : Type} {m n : Nat} (h : m ≠ n) (v w : α) (l : List (Nat × α)) :
    Assoc.put n w (Assoc.put m v l) = Assoc.put m v (Assoc.put n w l) := by
  induction l with
  | nil => grind [Assoc.put]
  | cons e t ih => grind [Assoc.put]

/-- The operation touches the sequences of number `q` alone, and at most the first of them decides how far it
goes: the others stay where they are. -/
structure ActsOn (q : Option Nat) (f : List Sequence → List Sequence) : Prop where
  nil  : f [] = []
  skip : ∀ e l, e.seq ≠ q → f (e :: l) = e :: f l
  own  : ∀ e, e.seq = q → ∃ es, (∀ y ∈ es, y.seq = q) ∧
    ((∀ l, f (e :: l) = es ++ f l) ∨ ∀ l, f (e :: l) = es ++ l)

theorem Sequences.finish_actsOn (q : Option Nat) : ActsOn q (Sequences.finish q) where
  nil := rfl
  skip e l he := List.filter_cons_of_pos (by simpa using he)
  own e he := ⟨[], by simp, .inl fun l => List.filter_cons_of_neg (by simpa using he)⟩

theorem Sequences.decoded_actsOn (q : Option Nat) : ActsOn q (Sequences.decoded q) where
  nil := rfl
  skip e l he := by rw [Sequences.decoded, if_neg fun h => he h.1]
  own e he := by
    by_cases h : e.seq = q ∧ e.collected = true ∧ e.phase = .waiting
    · exact ⟨[{ e with phase := .sampleRead }], by simpa using he,
        .inr fun l => by rw [Sequences.decoded, if_pos h]; rfl⟩
    · exact ⟨[e], by simpa using he, .inl fun l => by rw [Sequences.decoded, if_neg h]; rfl⟩

theorem Sequences.output_actsOn (q : Option Nat) : ActsOn q (Sequences.output q) where
  nil := rfl
  skip e l he := List.eraseP_cons_of_neg (by simp [he])
  own e he := by
    by_cases h : e.phase = .sampleRead
    · exact ⟨[], by simp, .inr fun l => List.eraseP_cons_of_pos (by simp [he, h])⟩
    · exact ⟨[e], by simpa using he, .inl fun l => List.eraseP_cons_of_neg (by simp [h])⟩

/-- Whatever the result is, it moves the sequences of its request's number alone (R217). -/
theorem Sequences.afterResult_actsOn (q : Option Nat) (r : Result) :
    ActsOn q (Sequences.afterResult q r) := by
  rcases Sequences.afterResult_cases q r with ⟨f, rfl⟩ | ⟨raw, rfl⟩ | ⟨v, rfl⟩ | ⟨-, -, -, hid⟩
  · exact Sequences.finish_actsOn q
  · exact Sequences.decoded_actsOn q
  · exact Sequences.output_actsOn q
  · exact ⟨hid [], fun e l _ => by rw [hid, hid],
      fun e he => ⟨[e], by simpa using he, .inl fun l => by rw [hid, hid]; rfl⟩⟩

section
variable {k l : Option Nat} {f g : List Sequence → List Sequence}

theorem ActsOn.skip_append (hf : ActsOn k f) {es : List Sequence} (hes : ∀ y ∈ es, y.seq ≠ k)
    (t : List Sequence) : f (es ++ t) = es ++ f t := by
  induction es with
  | nil => rfl
  | cons e es ih =>
    obtain ⟨he, hes⟩ := List.forall_mem_cons.1 hes
    rw [List.cons_append, hf.skip e _ he, ih hes, List.cons_append]

theorem ActsOn.comm_own (hf : ActsOn k f) (hg : ActsOn l g) (hkl : k ≠ l) {e : Sequence} {t : List Sequence}
    (he : e.seq = k) (ih : f (g t) = g (f t)) : f (g (e :: t)) = g (f (e :: t)) := by
  obtain ⟨es, hes, hcase⟩ := hf.own e he
  have hskip := hg.skip_append (es := es) fun y hy => hes y hy ▸ hkl
  rw [hg.skip e t (he ▸ hkl)]
  obtain hgo | hstop := hcase
  · rw [hgo, hgo, hskip, ih]
  · rw [hstop, hstop, hskip]

/-- Operations on the sequences of two numbers can be taken in either order. -/
theorem ActsOn.comm (hf : ActsOn k f) (hg : ActsOn l g) (hkl : k ≠ l) (t : List Sequence) :
    f (g t) = g (f t) := by
  induction t with
  | nil => rw [hg.nil, hf.nil, hg.nil]
  | cons e t ih =>
    by_cases hk : e.seq = k
    · exact hf.comm_own hg hkl hk ih
    · by_cases hl : e.seq = l
      · exact (hg.comm_own hf hkl.symm hl ih.symm).symm
      · rw [hg.skip e t hl, hf.skip e _ hk, hf.skip e t hk, hg.skip e _ hl, ih]

/-- Once the sequences of a number have ended, there is nothing for the operation to move. -/
theorem ActsOn.after_finish (hf : ActsOn k f) (t : List Sequence) :
    f (Sequences.finish k t) = Sequences.finish k t := by
  have h := hf.skip_append (es := Sequences.finish k t) (fun y hy => (Sequences.mem_finish.1 hy).2) []
  rwa [hf.nil, List.append_nil] at h

/-- What the operation has moved ends all the same. -/
theorem ActsOn.before_finish (hf : ActsOn k f) (t : List Sequence) :
    Sequences.finish k (f t) = Sequences.finish k t := by
  induction t with
  | nil => rw [hf.nil]
  | cons e t ih =>
    have hfin := Sequences.finish_actsOn k
    by_cases he : e.seq = k
    · obtain ⟨es, hes, hcase⟩ := hf.own e he
      have hempty : Sequences.finish k es = [] := by
        simpa [Sequences.finish, List.filter_eq_nil_iff] using hes
      have hcons : Sequences.finish k (e :: t) = Sequences.finish k t :=
        List.filter_cons_of_neg (by simpa using he)
      have happend (t' : List Sequence) : Sequences.finish k (es ++ t') = Sequences.finish k t' := by
        rw [Sequences.finish, List.filter_append]
        exact congrArg (· ++ Sequences.finish k t') hempty
      obtain hgo | hstop := hcase
      · rw [hgo, happend, ih, hcons]
      · rw [hstop, happend, hcons]
    · rw [hf.skip e t he, hfin.skip e _ he, hfin.skip e _ he, ih]

end

/-- Two results of one number move its sequences the same in either order, but for a DECR's and a SCALE's. -/
theorem Sequences.afterResult_comm_same {q : Option Nat} {r r' : Result}
    (h : ∀ raw v, ¬ (r = .ok (.decr raw) ∧ r' = .ok (.scale v)))
    (h' : ∀ raw v, ¬ (r = .ok (.scale v) ∧ r' = .ok (.decr raw))) (l : List Sequence) :
    Sequences.afterResult q r (Sequences.afterResult q r' l) =
      Sequences.afterResult q r' (Sequences.afterResult q r l) := by
  have hr := Sequences.afterResult_actsOn q r
  have hr' := Sequences.afterResult_actsOn q r'
  obtain ⟨f, rfl⟩ | hok := Sequences.afterResult_cases q r
  · rw [Sequences.afterResult_fault, Sequences.afterResult_fault, hr'.before_finish, hr'.after_finish]
  obtain ⟨f, rfl⟩ | hok' := Sequences.afterResult_cases q r'
  · rw [Sequences.afterResult_fault, Sequences.afterResult_fault, hr.before_finish, hr.after_finish]
  rcases hok with ⟨raw, rfl⟩ | ⟨v, rfl⟩ | ⟨-, -, -, hid⟩
  · rcases hok' with ⟨raw', rfl⟩ | ⟨v', rfl⟩ | ⟨-, -, -, hid'⟩
    · rfl
    · exact absurd ⟨rfl, rfl⟩ (h raw v')
    · rw [hid', hid']
  · rcases hok' with ⟨raw', rfl⟩ | ⟨v', rfl⟩ | ⟨-, -, -, hid'⟩
    · exact absurd ⟨rfl, rfl⟩ (h' raw' v)
    · rfl
    · rw [hid', hid']
  · rw [hid, hid]

/-- What is left on the list once the outcome of an action has been checked (R213). -/
def leftAfter (a : BitVec 7) (q : Option Nat) : Result → List Action → List Action
  | .ok _, acts => acts
  | .fault _, acts => dropSequence a q acts

theorem RequestEffect.pending {a : BitVec 7} {q dst : Option Nat} {r : Result} {s t : State}
    (h : RequestEffect a q dst r s t) : t.pending = leftAfter a q r s.pending := by
  cases r with
  | ok o => exact h.pending_ok rfl
  | fault f => exact h.pending_fault rfl

/-- Two sequences can be taken off the list in either order. -/
theorem dropSequence_comm (a b : BitVec 7) (k l : Option Nat) (acts : List Action) :
    dropSequence a k (dropSequence b l acts) = dropSequence b l (dropSequence a k acts) := by
  cases k with
  | none => rfl
  | some k =>
    cases l with
    | none => rfl
    | some l => exact List.filter_comm _ _ _

theorem leftAfter_comm (a b : BitVec 7) (k l : Option Nat) (r r' : Result) (acts : List Action) :
    leftAfter a k r (leftAfter b l r' acts) = leftAfter b l r' (leftAfter a k r acts) := by
  cases r with
  | ok o => rfl
  | fault f =>
    cases r' with
    | ok o => rfl
    | fault f => exact dropSequence_comm a b k l acts

/-- An action that is not of the ended sequence is still the next one. -/
theorem leftAfter_cons {a : BitVec 7} {q : Option Nat} {r : Result} {y : Action} {acts : List Action}
    (h : a = y.addr → q = y.seq → q ≠ none → ∃ o, r = .ok o) :
    leftAfter a q r (y :: acts) = y :: leftAfter a q r acts := by
  cases r with
  | ok o => rfl
  | fault f =>
    cases q with
    | none => rfl
    | some k =>
      have hy : ¬ (y.addr = a ∧ y.seq = some k) := fun hy => by
        obtain ⟨o, ho⟩ := h hy.1.symm hy.2.symm (by simp)
        cases ho
      simp only [leftAfter, dropSequence]
      exact List.filter_cons_of_pos (by simpa [imp_iff_not_or] using hy)

/-- The sequences that a request of `q` at `a`, answered with `r`, leaves in the session at `c`. -/
def movedAt (a : BitVec 7) (q : Option Nat) (r : Result) (c : BitVec 7) (l : List Sequence) :
    List Sequence :=
  if c = a then Sequences.afterResult q r l else l

theorem RequestEffect.session_moved {a : BitVec 7} {q dst : Option Nat} {r : Result} {s t : State}
    (h : RequestEffect a q dst r s t) (c : BitVec 7) :
    t.session c = { device := (s.session c).device, sequences := movedAt a q r c (s.session c).sequences } := by
  by_cases hc : c = a
  · subst hc
    simp [h.session, movedAt]
  · simp [h.session_other hc, movedAt, hc]

/-- However it comes to be presented, the request is answered, with this one result (R12). -/
def AnsweredBy (a : BitVec 7) (q dst : Option Nat) (req : Request) (r : Result) : Prop :=
  ∀ (s : State) (rest : List Action), nextAct s a q (.request dst req) rest →
    ∃ t, step s = .next t ∧ RequestEffect a q dst r (s.withPending rest) t

section
variable {s t u : State} {a b : BitVec 7} {k l : Option Nat} {m n : Nat} {req req' : Request}
  {r r' : Result} {rest : List Action}

/-- A request that is answered once is answered so in every state. -/
theorem exists_answeredBy {dst : Option Nat} (hact : nextAct s a k (.request dst req) rest)
    (hs : step s = .next t) : ∃ r, AnsweredBy a k dst req r := by
  rw [step_cons hact] at hs
  obtain ⟨r, hr⟩ := present_answer_uniform (show present exec a k dst req _ = _ from hs)
  refine ⟨r, fun u rest' hact' => ⟨_, (step_cons hact').trans (hr (u.withPending rest')), ?_⟩⟩
  obtain ⟨r', heff⟩ := present_next (hr (u.withPending rest'))
  have : (conclude a k dst ((u.withPending rest').setResult r)).result = some r := by
    simp [conclude_of_result (s := (u.withPending rest').setResult r) rfl]
  exact heff.result_unique this ▸ heff

/-- An OK result comes of the operation that the request decodes to. -/
theorem AnsweredBy.answers {dst : Option Nat} {o : Outputs} (h : AnsweredBy a k dst req (.ok o)) :
    ∃ i, decode req = .ok i ∧ Answers i (.ok o) := by
  have hact : nextAct (State.reset.withPending [{ addr := a, seq := k, act := .request dst req }]) a k
      (.request dst req) [] := rfl
  obtain ⟨t, hs, heff⟩ := h _ _ hact
  cases hd : decode req with
  | ok i =>
    obtain ⟨t', r, hs', hexec, heff'⟩ := exists_step_request hact hd
    cases hs.symm.trans hs'
    exact ⟨i, rfl, heff'.result_unique heff.result ▸ answers_of_exec hexec⟩
  | error e =>
    cases e with
    | illegalOp op =>
      obtain ⟨rfl, hop⟩ := decode_illegalOp.1 hd
      obtain ⟨t', hs', heff'⟩ := exists_step_illegalOp hact hop
      cases hs.symm.trans hs'
      cases heff'.result_unique heff.result
    | decrByteCount n =>
      rw [step_cons hact] at hs
      simp only [perform, present, hd] at hs
      cases hs

/-- Only a request with DECR's `op` answers a RawSample. -/
theorem AnsweredBy.op_decr {dst : Option Nat} {raw : Word16}
    (h : AnsweredBy a k dst req (.ok (.decr raw))) : req.op = 0x2 := by
  obtain ⟨i, hd, hi⟩ := h.answers
  obtain ⟨-, hop⟩ := wf_and_op_of_decode_ok hd
  rw [hop, op_of_answers_decr hi]

/-- Only a request with SCALE's `op` answers a reading. -/
theorem AnsweredBy.op_scale {dst : Option Nat} {v : BitVec 64}
    (h : AnsweredBy a k dst req (.ok (.scale v))) : req.op = 0x4 := by
  obtain ⟨i, hd, hi⟩ := h.answers
  obtain ⟨-, hop⟩ := wf_and_op_of_decode_ok hd
  rw [hop, op_of_answers_scale hi]

/-- What two requests leave, one after the other, the first of which does not end the second's sequence. -/
theorem two_requests (hr : AnsweredBy a k (some m) req r) (hr' : AnsweredBy b l (some n) req' r')
    (hact : nextAct s a k (.request (some m) req) ({ addr := b, seq := l, act := .request (some n) req' } :: rest))
    (hst : step s = .next t) (htu : step t = .next u)
    (hok : a = b → k = l → k ≠ none → ∃ o, t.result = some (.ok o)) :
    u.results = Assoc.put n r' (Assoc.put m r s.results) ∧
      (∀ c, u.session c = { device := (s.session c).device
                            sequences := movedAt b l r' c (movedAt a k r c (s.session c).sequences) }) ∧
      u.now = s.now ∧ u.draws = s.draws ∧ u.pending = leftAfter b l r' (leftAfter a k r rest) := by
  obtain ⟨t₁, hst₁, heff⟩ := hr s _ hact
  cases hst.symm.trans hst₁
  have hpending : t.pending =
      { addr := b, seq := l, act := .request (some n) req' } :: leftAfter a k r rest := by
    refine heff.pending.trans (leftAfter_cons fun ha hk hn => ?_)
    obtain ⟨o, ho⟩ := hok ha hk hn
    exact ⟨o, heff.result_unique ho⟩
  obtain ⟨u₁, htu₁, heff'⟩ := hr' t _ hpending
  cases htu.symm.trans htu₁
  refine ⟨?_, fun c => ?_, heff'.now.trans heff.now, heff'.draws.trans heff.draws, heff'.pending⟩
  · simp [heff'.results, heff.results]
  · simp [heff'.session_moved, heff.session_moved]

/-- Two requests move the sequences of a session in either order, but for a DECR and a SCALE of one of them. -/
theorem movedAt_comm (hr : AnsweredBy a k (some m) req r) (hr' : AnsweredBy b l (some n) req' r')
    {c : BitVec 7} (hc : ¬ (c = a ∧ a = b ∧ k = l ∧
      ((req.op = 0x2 ∧ req'.op = 0x4) ∨ (req.op = 0x4 ∧ req'.op = 0x2)))) (seqs : List Sequence) :
    movedAt b l r' c (movedAt a k r c seqs) = movedAt a k r c (movedAt b l r' c seqs) := by
  by_cases ha : c = a
  · by_cases hb : c = b
    · by_cases hkl : k = l
      · subst ha hb hkl
        have hops : ¬ ((req.op = 0x2 ∧ req'.op = 0x4) ∨ (req.op = 0x4 ∧ req'.op = 0x2)) :=
          fun h => hc ⟨rfl, rfl, rfl, h⟩
        simp only [movedAt, if_true]
        refine Sequences.afterResult_comm_same (fun raw v h => ?_) (fun raw v h => ?_) seqs
        · obtain ⟨rfl, rfl⟩ := h
          exact hops (.inr ⟨hr.op_scale, hr'.op_decr⟩)
        · obtain ⟨rfl, rfl⟩ := h
          exact hops (.inl ⟨hr.op_decr, hr'.op_scale⟩)
      · simp only [movedAt, if_pos ha, if_pos hb]
        exact (Sequences.afterResult_actsOn l r').comm (Sequences.afterResult_actsOn k r) (Ne.symm hkl) seqs
    · simp [movedAt, hb]
  · simp [movedAt, ha]

end

/-- Settles O32: each request is answered alike in both orders, and what the two leave, taken part by part,
does not depend on the order. -/
theorem requestOrderDoesNotMatter : Obligations.RequestOrderDoesNotMatter := by
  intro s a b k l m n req req' rest t u t' u' hrising hmn hact hst htu hst' htu' hok
  obtain ⟨r, hr⟩ := exists_answeredBy hact hst
  have hact' : nextAct (s.withPending ({ addr := b, seq := l, act := .request (some n) req' } ::
      { addr := a, seq := k, act := .request (some m) req } :: rest)) b l (.request (some n) req')
      ({ addr := a, seq := k, act := .request (some m) req } :: rest) := rfl
  obtain ⟨r', hr'⟩ := exists_answeredBy hact' hst'
  obtain ⟨hresults, hsession, hnow, hdraws, hpending⟩ := two_requests hr hr' hact hst htu
    fun ha hk hn => (hok ha hk hn).1
  obtain ⟨hresults', hsession', hnow', hdraws', hpending'⟩ := two_requests hr' hr hact' hst' htu'
    fun hb hl hn => (hok hb.symm hl.symm (hl ▸ hn)).2
  refine ⟨?_, fun c => ?_, fun c hc => ?_, hnow.trans hnow'.symm, hdraws.trans hdraws'.symm, ?_⟩
  · rw [hresults, hresults']
    exact Assoc.put_comm hmn r r' s.results
  · rw [hsession, hsession', State.session_withPending]
  · rw [hsession, hsession', State.session_withPending, movedAt_comm hr hr' hc]
  · rw [hpending, hpending', leftAfter_comm]

end Sys2Proof.Machine
end

section
/-! SUPPORT. 30_encoding.md R71, R75, R92: the operands of a line, taken from left to right, and the request
that their values make. -/

namespace Sys2Proof.Machine

/-- The value of an operand that its port carries, or why there is none (R71, R92). -/
def portValue (results : List (Nat × Result)) (e : PortKind × Operand) : Except Stop Int :=
  match Operand.value results e.2 with
  | .error x => .error x
  | .ok v => if e.1.carries v then .ok v else .error (.refuse .operandDoesNotFit)

/-- The values of a line's operands, from left to right: the first that has none decides. -/
def portValues (results : List (Nat × Result)) : List (PortKind × Operand) → Except Stop (List Int)
  | [] => .ok []
  | e :: es => portValue results e >>= fun v => (v :: ·) <$> portValues results es

section
variable {results : List (Nat × Result)} {k : PortKind} {o : Operand} {v : Int} {e : PortKind × Operand}

theorem portValue_error {x : Stop} (hv : Operand.value results o = .error x) :
    portValue results (k, o) = .error x := by
  simp [portValue, hv]

theorem portValue_unfit (hv : Operand.value results o = .ok v) (hc : k.carries v = false) :
    portValue results (k, o) = .error (.refuse .operandDoesNotFit) := by
  simp [portValue, hv, hc]

theorem portValue_eq_ok :
    portValue results e = .ok v ↔ Operand.value results e.2 = .ok v ∧ e.1.carries v = true := by
  cases hv : Operand.value results e.2 with
  | error x => simp [portValue, hv]
  | ok w =>
    cases hc : e.1.carries w with
    | false => simp [portValue, hv, hc]; rintro rfl; exact hc
    | true => simp [portValue, hv, hc]; rintro rfl; exact hc

theorem resolves_iff : Resolves results e ↔ ∃ v, portValue results e = .ok v := by
  simp only [Resolves, portValue_eq_ok]

/-- An unbounded port takes the value, which is a natural. -/
theorem operandNat_eq : Operand.nat results o = Int.toNat <$> portValue results (.nat, o) := by
  rw [Operand.nat, portValue]
  cases Operand.value results o with
  | error x => rfl
  | ok v =>
    change natPort v = Int.toNat <$> (if decide (0 ≤ v) = true then _ else _)
    by_cases hc : 0 ≤ v <;> simp [natPort, hc]

/-- A `w`-bit port takes the value, which has `w` bits. -/
theorem operandBits_eq (w : Nat) :
    Operand.bits w results o = BitVec.ofInt w <$> portValue results (.bits w, o) := by
  rw [Operand.bits, portValue]
  cases Operand.value results o with
  | error x => rfl
  | ok v =>
    change bitsPort w v = BitVec.ofInt w <$> (if decide (0 ≤ v ∧ v < 2 ^ w) = true then _ else _)
    by_cases hc : 0 ≤ v ∧ v < 2 ^ w <;> simp [bitsPort, hc]

/-- The `s16` port takes the value, which is in its range. -/
theorem operandS16_eq :
    (Operand.value results o >>= s16Port) = BitVec.ofInt 16 <$> portValue results (.s16, o) := by
  rw [portValue]
  cases Operand.value results o with
  | error x => rfl
  | ok v =>
    change s16Port v = BitVec.ofInt 16 <$> (if decide (-32768 ≤ v ∧ v ≤ 32767) = true then _ else _)
    by_cases hc : -32768 ≤ v ∧ v ≤ 32767 <;> simp [s16Port, hc]

/-- What a port has taken is the operand's value, unchanged. -/
theorem value_of_natPort (h : portValue results (.nat, o) = .ok v) :
    Operand.value results o = .ok (v.toNat : Int) := by
  obtain ⟨hv, hc⟩ := portValue_eq_ok.1 h
  have hc : 0 ≤ v := by simpa [PortKind.carries] using hc
  rw [Int.toNat_of_nonneg hc]
  exact hv

theorem value_of_bitsPort {w : Nat} (h : portValue results (.bits w, o) = .ok v) :
    Operand.value results o = .ok ((BitVec.ofInt w v).toNat : Int) := by
  obtain ⟨hv, hc⟩ := portValue_eq_ok.1 h
  have hc : 0 ≤ v ∧ v < 2 ^ w := by simpa [PortKind.carries] using hc
  have htoNat : ((BitVec.ofInt w v).toNat : Int) = v := by
    rw [BitVec.toNat_ofInt]
    rw [Int.natCast_pow, Int.toNat_of_nonneg (Int.emod_nonneg _ (by simp)),
      Int.emod_eq_of_lt hc.1 (by simpa using hc.2)]
  rw [htoNat]
  exact hv

theorem value_of_s16Port (h : portValue results (.s16, o) = .ok v) :
    Operand.value results o = .ok (BitVec.ofInt 16 v).toInt := by
  obtain ⟨hv, hc⟩ := portValue_eq_ok.1 h
  have hc : -32768 ≤ v ∧ v ≤ 32767 := by simpa [PortKind.carries] using hc
  have htoInt : (BitVec.ofInt 16 v).toInt = v := by
    rw [BitVec.toInt_ofInt, Int.bmod_eq_of_le] <;> omega
  rw [htoInt]
  exact hv

end

section
variable {results : List (Nat × Result)} {e : PortKind × Operand} {es : List (PortKind × Operand)}

/-- The values are those of the operands, one by one. -/
theorem portValues_eq_ok {vs : List Int} :
    portValues results es = .ok vs ↔ List.Forall₂ (fun e v => portValue results e = .ok v) es vs := by
  induction es generalizing vs with
  | nil => simp [portValues, eq_comm]
  | cons e es ih =>
    rw [portValues, List.forall₂_cons_left_iff]
    cases portValue results e with
    | error x => simp [bind, Except.bind]
    | ok v =>
      simp only [← ih]
      cases portValues results es with
      | error x => simp [bind, Except.bind, Functor.map, Except.map]
      | ok vs' => simp [bind, Except.bind, Functor.map, Except.map, eq_comm]

/-- Where every operand has a value, all of them have. -/
theorem portValues_resolve (h : ∀ e ∈ es, Resolves results e) : ∃ vs, portValues results es = .ok vs := by
  induction es with
  | nil => exact ⟨[], rfl⟩
  | cons e es ih =>
    obtain ⟨he, hes⟩ := List.forall_mem_cons.1 h
    obtain ⟨v, hv⟩ := resolves_iff.1 he
    obtain ⟨vs, hvs⟩ := ih hes
    exact ⟨v :: vs, portValues_eq_ok.2 (.cons hv (portValues_eq_ok.1 hvs))⟩

/-- The first operand that has no value decides, whatever comes after it (R92). -/
theorem portValues_stop {before after : List (PortKind × Operand)} {x : Stop}
    (h : ∀ e ∈ before, Resolves results e) (he : portValue results e = .error x) :
    portValues results (before ++ e :: after) = .error x := by
  induction before with
  | nil => simp only [List.nil_append, portValues, he]; rfl
  | cons b bs ih =>
    obtain ⟨hb, hbs⟩ := List.forall_mem_cons.1 h
    obtain ⟨v, hv⟩ := resolves_iff.1 hb
    simp only [List.cons_append, portValues, hv, ih hbs]
    rfl

end

/-- The request of a line's operation with these values at its ports (R71, R93). A line has as many values as
operands; no other list is asked for. -/
def Line.request : Line → List Int → Request
  | .enc .., [os, mux, pga, mode, dr, cmode, cpol, clat, cque] =>
    encode (.enc os.toNat mux.toNat pga.toNat mode.toNat dr.toNat cmode.toNat cpol.toNat clat.toNat cque.toNat)
  | .decf .., [msb, lsb] => encode (.decf (BitVec.ofInt 8 msb) (BitVec.ofInt 8 lsb))
  | .decr .., [high, low] => encode (.decr [BitVec.ofInt 8 high, BitVec.ofInt 8 low])
  | .gainlut .., [gain] => encode (.gainlut (BitVec.ofInt 3 gain))
  | .scale .., [raw, gain] => encode (.scale (BitVec.ofInt 16 raw) (BitVec.ofInt 3 gain))
  | .chsel label, _ => encode (.chsel label)
  | .cfgframe .., [msb, lsb] => encode (.cfgframe (BitVec.ofInt 8 msb) (BitVec.ofInt 8 lsb))
  | .encss .., [mux, pga, dr] => encode (.enc 1 mux.toNat pga.toNat 1 dr.toNat 0 0 0 3)
  | .bareOp op, _ => { op := op }
  | _, _ => encode .convframe

/-- A line stands for the request that the values of its operands make. -/
theorem toRequest_eq (results : List (Nat × Result)) (l : Line) :
    Line.toRequest results l = Line.request l <$> portValues results (Line.ports l) := by
  cases l with
  | enc os mux pga mode dr cmode cpol clat cque =>
    simp only [Line.toRequest, Line.expand, Line.ports, portValues, operandNat_eq, bind_map_left, map_bind,
      Functor.map_map]
    rfl
  | decf msb lsb | decr high low | cfgframe msb lsb | gainlut gain =>
    simp only [Line.toRequest, Line.expand, Line.ports, portValues, operandBits_eq, bind_map_left, map_bind,
      Functor.map_map]
    rfl
  | scale raw gain =>
    simp only [Line.toRequest, Line.expand, Line.ports, portValues, operandBits_eq, operandS16_eq,
      bind_map_left, map_bind, Functor.map_map]
    rfl
  | encss mux pga dr =>
    simp only [Line.toRequest, Line.expand, Line.ports, portValues, operandNat_eq, bind_map_left, map_bind,
      Functor.map_map]
    rfl
  | chsel label | convframe | bareOp op => rfl

/-- Settles O34: ENCSS is expanded to that ENC line before any operand is read. -/
theorem encssIsEncWithDefaults : Obligations.EncssIsEncWithDefaults := fun _ _ _ _ => rfl

section
variable {results : List (Nat × Result)} {l : Line}

theorem toRequest_resolves (h : ∀ e ∈ Line.ports l, Resolves results e) :
    ∃ r, Line.toRequest results l = .ok r := by
  obtain ⟨vs, hvs⟩ := portValues_resolve h
  exact ⟨_, by rw [toRequest_eq, hvs]; rfl⟩

theorem toRequest_stop {before after : List (PortKind × Operand)} {e : PortKind × Operand} {x : Stop}
    (hports : Line.ports l = before ++ e :: after) (h : ∀ e ∈ before, Resolves results e)
    (he : portValue results e = .error x) : Line.toRequest results l = .error x := by
  rw [toRequest_eq, hports, portValues_stop h he]
  rfl

/-- A request that a line stands for is of its values. -/
theorem portValues_of_toRequest {r : Request} (h : Line.toRequest results l = .ok r) :
    ∃ vs, List.Forall₂ (fun e v => portValue results e = .ok v) (Line.ports l) vs ∧
      Line.request l vs = r := by
  rw [toRequest_eq] at h
  cases hvs : portValues results (Line.ports l) with
  | error x => rw [hvs] at h; cases h
  | ok vs => rw [hvs] at h; exact ⟨vs, portValues_eq_ok.1 hvs, Except.ok.inj h⟩

/-- The request of a line has its operation and carries each operand's value unchanged (R92). -/
theorem spells_of_toRequest {r : Request} (h : Line.toRequest results l = .ok r) :
    Line.Spells results r l := by
  obtain ⟨vs, hvs, rfl⟩ := portValues_of_toRequest h
  cases l with
  | enc os mux pga mode dr cmode cpol clat cque =>
    obtain _ | ⟨hos, _ | ⟨hmux, _ | ⟨hpga, _ | ⟨hmode, _ | ⟨hdr, _ | ⟨hcmode, _ | ⟨hcpol, _ | ⟨hclat,
      _ | ⟨hcque, ⟨⟩⟩⟩⟩⟩⟩⟩⟩⟩⟩ := hvs
    exact ⟨rfl, value_of_natPort hos, value_of_natPort hmux, value_of_natPort hpga, value_of_natPort hmode,
      value_of_natPort hdr, value_of_natPort hcmode, value_of_natPort hcpol, value_of_natPort hclat,
      value_of_natPort hcque⟩
  | decf msb lsb =>
    obtain _ | ⟨hmsb, _ | ⟨hlsb, ⟨⟩⟩⟩ := hvs
    exact ⟨rfl, value_of_bitsPort hmsb, value_of_bitsPort hlsb⟩
  | decr high low =>
    obtain _ | ⟨hhigh, _ | ⟨hlow, ⟨⟩⟩⟩ := hvs
    exact ⟨rfl, _, _, rfl, value_of_bitsPort hhigh, value_of_bitsPort hlow⟩
  | gainlut gain =>
    obtain _ | ⟨hgain, ⟨⟩⟩ := hvs
    exact ⟨rfl, value_of_bitsPort hgain⟩
  | scale raw gain =>
    obtain _ | ⟨hraw, _ | ⟨hgain, ⟨⟩⟩⟩ := hvs
    exact ⟨rfl, value_of_s16Port hraw, value_of_bitsPort hgain⟩
  | chsel label => exact ⟨rfl, rfl⟩
  | cfgframe msb lsb =>
    obtain _ | ⟨hmsb, _ | ⟨hlsb, ⟨⟩⟩⟩ := hvs
    exact ⟨rfl, value_of_bitsPort hmsb, value_of_bitsPort hlsb⟩
  | convframe => rfl
  | encss mux pga dr =>
    obtain _ | ⟨hmux, _ | ⟨hpga, _ | ⟨hdr, ⟨⟩⟩⟩⟩ := hvs
    exact ⟨rfl, rfl, value_of_natPort hmux, value_of_natPort hpga, rfl, value_of_natPort hdr, rfl, rfl, rfl,
      rfl⟩
  | bareOp op => rfl

end

/-- The ports of a named OK result carry its outputs (R71, R92). -/
theorem portsCarry_of_ok {results : List (Nat × Result)} {n : Nat} {o : Outputs}
    (h : Assoc.get n results = some (.ok o)) : PortsCarry results n o := by
  have hport {p : PortName} {v : Int} := Operand.value_port (p := p) (v := v) h
  have hframe {bytes : List Byte} := FrameArg.value_port (bytes := bytes) h
  cases o with
  | enc msb lsb => exact ⟨hport rfl, hport rfl⟩
  | decf c =>
    exact ⟨hport rfl, hport rfl, hport rfl, hport rfl, hport rfl, hport rfl, hport rfl, hport rfl, hport rfl⟩
  | decr raw => exact hport rfl
  | gainlut fsrMv lsbPv => exact ⟨hport rfl, hport rfl⟩
  | scale voltsPv => exact hport rfl
  | chsel mux => exact hport rfl
  | cfgframe frame => exact hframe rfl
  | convframe frame rdlen => exact ⟨hframe rfl, hport rfl⟩
  | busWritten => trivial
  | busRead high low => exact ⟨hport rfl, hport rfl⟩

section
variable {s : State} {a : BitVec 7} {q dst : Option Nat} {l : Line} {rest : List Action}

/-- A line that stands for a request is performed as that request. -/
theorem step_line {r : Request} (hact : nextAct s a q (.line dst l) rest)
    (h : Line.toRequest s.results l = .ok r) :
    step s = step { s with pending := { addr := a, seq := q, act := .request dst r } :: rest } := by
  rw [step_cons hact, step_cons (s := { s with pending := _ }) rfl]
  simp only [perform, State.withPending_results, h]
  rfl

/-- A line that stands for none stops the machine for that reason. -/
theorem step_line_stop {x : Stop} (hact : nextAct s a q (.line dst l) rest)
    (h : Line.toRequest s.results l = .error x) : step s = Stop.out x := by
  rw [step_cons hact]
  simp only [perform, State.withPending_results, h]

end

/-- Settles O29: a line is the request of its operands' values, or stops at the first that has none. -/
theorem stepRunsTheResolvedLine : Obligations.StepRunsTheResolvedLine := by
  intro s a q dst l rest hact
  refine ⟨toRequest_resolves, fun r hr => ⟨spells_of_toRequest hr, step_line hact hr⟩,
    fun before after k o v hports hbefore hv hc => ?_, fun v => rfl, fun n o => portsCarry_of_ok⟩
  exact step_line_stop hact (toRequest_stop hports hbefore (portValue_unfit hv hc))

/-- Settles O33: the value of a port of a FAULT result is the stop, and the first operand without a value
decides. -/
theorem namingAFaultStopsTheRequester : Obligations.NamingAFaultStopsTheRequester := by
  intro s a q dst n f rest hfault
  have hnamed : namedOutputs s.results n = .error (.fault (.requesterStops n)) := by
    simp only [namedOutputs, hfault]
  have hoperand (p : PortName) : Operand.value s.results (.port n p) = .error (.fault (.requesterStops n)) := by
    simp only [Operand.value, hnamed]
  have hframe : FrameArg.value s.results (.port n) = .error (.fault (.requesterStops n)) := by
    simp only [FrameArg.value, hnamed]
  refine ⟨fun l before after k p hact hports hbefore => ?_, fun ok hact => ?_, fun len ok hact => ?_,
    fun arg b p ok hact hb => ?_⟩
  · exact step_line_stop hact (toRequest_stop hports hbefore (portValue_error (hoperand p)))
  · rw [step_cons hact]
    simp only [perform, State.withPending_results, hframe, Stop.out]
  · rw [step_cons hact]
    simp only [perform, State.withPending_results, hframe, Stop.out]
  · rw [step_cons hact]
    simp only [perform, State.withPending_results, hb, hoperand, Stop.out]

end Sys2Proof.Machine
end

section
/-! SUPPORT. 40_config_codec.md: ENC and DECF on values by field, and the two as inverses of each other. -/

namespace Sys2Proof.Machine

/-- The MSB byte of nine values by field, and the LSB byte (R76). -/
def msbOfFields (v : Field → Nat) : Byte := packMsb (v .os) (v .mux) (v .pga) (v .mode)

/-- See `msbOfFields`. -/
def lsbOfFields (v : Field → Nat) : Byte := packLsb (v .dr) (v .cmode) (v .cpol) (v .clat) (v .cque)

/-- ENC's operands beside their fields, from values by field (R110). -/
def operandsOf (v : Field → Nat) : List (Field × Nat) :=
  fieldOperands (v .os) (v .mux) (v .pga) (v .mode) (v .dr) (v .cmode) (v .cpol) (v .clat) (v .cque)

/-- The range check of ENC, on values by field (R112). -/
theorem inRange_iff {v : Field → Nat} : InRange v ↔ firstOutOfRange (operandsOf v) = none := by
  rw [operandsOf, fieldOperands_inRange]
  constructor
  · exact fun h => ⟨h .os, h .mux, h .pga, h .mode, h .dr, h .cmode, h .cpol, h .clat, h .cque⟩
  · rintro ⟨hos, hmux, hpga, hmode, hdr, hcmode, hcpol, hclat, hcque⟩ (_ | _ | _ | _ | _ | _ | _ | _ | _) <;>
      assumption

theorem exec_encOf {v : Field → Nat} (h : InRange v) (s : State) :
    exec (encOf v) s = .next { s with result := some (.ok (.enc (msbOfFields v) (lsbOfFields v))) } :=
  execEnc_ok (inRange_iff.1 h) s

/-- The two bytes of in-range values, as sums (R76). -/
theorem bytesOfFields_toNat {v : Field → Nat} (h : InRange v) :
    (msbOfFields v).toNat = 128 * v .os + 16 * v .mux + 2 * v .pga + v .mode ∧
      (lsbOfFields v).toNat = 32 * v .dr + 16 * v .cmode + 8 * v .cpol + 4 * v .clat + v .cque :=
  ⟨packMsb_toNat (h .os) (h .mux) (h .pga) (h .mode),
    packLsb_toNat (h .dr) (h .cmode) (h .cpol) (h .clat) (h .cque)⟩

/-- Settles O1: the bytes are the packed ones, whose values are the sums. -/
theorem encPacksInRangeFields : Obligations.EncPacksInRangeFields := by
  intro s v hv
  exact ⟨_, _, exec_encOf hv s, bytesOfFields_toNat hv⟩

/-- Settles O4: the fields are those of `unpack`. -/
theorem decfReadsEachField : Obligations.DecfReadsEachField :=
  fun _ msb lsb => ⟨_, rfl, unpack_toNat msb lsb⟩

/-- The range check reports the first offender: it passes over a field that is in range. -/
theorem firstOutOfRange_first {before after : List (Field × Nat)} {f : Field} {n : Nat}
    (hbefore : ∀ e ∈ before, e.2 < 2 ^ Field.width e.1) (hf : 2 ^ Field.width f ≤ n) :
    firstOutOfRange (before ++ (f, n) :: after) = some f := by
  induction before with
  | nil => simp [firstOutOfRange, hf]
  | cons e es ih =>
    obtain ⟨he, hes⟩ := List.forall_mem_cons.1 hbefore
    simp [firstOutOfRange, Nat.not_le.2 he, ih hes]

/-- The fields before one in the order of ENC's operands are those of lower index (R24). -/
theorem operandsOf_split (v : Field → Nat) (f : Field) :
    ∃ before after, operandsOf v = before ++ (f, v f) :: after ∧
      ∀ e ∈ before, e.2 = v e.1 ∧ Field.index e.1 < Field.index f := by
  refine ⟨(operandsOf v).take (Field.index f), (operandsOf v).drop (Field.index f + 1), ?_, ?_⟩
  · cases f <;> rfl
  · cases f <;> simp [operandsOf, fieldOperands, Field.index]

/-- Settles O3: the check passes over the fields of lower index and stops at the first that is too wide. -/
theorem encReportsLowestOffendingField : Obligations.EncReportsLowestOffendingField := by
  intro s v f hf hlower
  obtain ⟨before, after, hsplit, hbefore⟩ := operandsOf_split v f
  refine ⟨execEnc_fault ?_ s, rfl, rfl⟩
  change firstOutOfRange (operandsOf v) = some f
  rw [hsplit]
  refine firstOutOfRange_first (fun e he => ?_) hf
  obtain ⟨hv, hindex⟩ := hbefore e he
  exact hv ▸ hlower e.1 hindex

/-- What ENC packed, DECF unpacks (R116). -/
theorem encOfFields_unpack {v : Field → Nat} (h : InRange v) :
    encOfFields (unpack (msbOfFields v) (lsbOfFields v)) = encOf v := by
  obtain ⟨hmsb, hlsb⟩ := bytesOfFields_toNat h
  obtain ⟨hos, hmux, hpga, hmode, hdr, hcmode, hcpol, hclat, hcque⟩ :=
    unpack_toNat (msbOfFields v) (lsbOfFields v)
  have := fieldOperands_inRange.1 (inRange_iff.1 h)
  rw [encOfFields, encOf, hos, hmux, hpga, hmode, hdr, hcmode, hcpol, hclat, hcque, hmsb, hlsb]
  congr 1 <;> omega

/-- Settles O13: DECF reads the operands back out of the sums. -/
theorem encThenDecfReturnsFields : Obligations.EncThenDecfReturnsFields := by
  intro s s' v hv
  exact ⟨_, _, _, exec_encOf hv s, rfl, encOfFields_unpack hv⟩

/-- The nine values of an unpacked word, by field. -/
def Configuration.value (c : Configuration) : Field → Nat
  | .os => c.os.toNat | .mux => c.mux.toNat | .pga => c.pga.toNat | .mode => c.mode.toNat
  | .dr => c.dr.toNat | .cmode => c.cmode.toNat | .cpol => c.cpol.toNat | .clat => c.clat.toNat
  | .cque => c.cque.toNat

/-- Every unpacked value fits its field, since the field carries it. -/
theorem Configuration.value_inRange (c : Configuration) : InRange (Configuration.value c) := by
  intro f
  cases f <;> exact BitVec.isLt _

/-- What DECF unpacked, ENC packs again (R117). -/
theorem pack_unpack (msb lsb : Byte) :
    msbOfFields (Configuration.value (unpack msb lsb)) = msb ∧
      lsbOfFields (Configuration.value (unpack msb lsb)) = lsb := by
  obtain ⟨hmsb, hlsb⟩ := bytesOfFields_toNat (Configuration.value_inRange (unpack msb lsb))
  obtain ⟨hos, hmux, hpga, hmode, hdr, hcmode, hcpol, hclat, hcque⟩ := unpack_toNat msb lsb
  simp only [Configuration.value, hos, hmux, hpga, hmode, hdr, hcmode, hcpol, hclat, hcque] at hmsb hlsb
  constructor
  · apply BitVec.eq_of_toNat_eq; omega
  · apply BitVec.eq_of_toNat_eq; omega

/-- Settles O14: the unpacked values are in range, and the bytes of their sums are the two bytes. -/
theorem decfThenEncReturnsBytes : Obligations.DecfThenEncReturnsBytes := by
  intro s s' msb lsb
  obtain ⟨hmsb, hlsb⟩ := pack_unpack msb lsb
  refine ⟨unpack msb lsb, rfl, ?_⟩
  have h := exec_encOf (Configuration.value_inRange (unpack msb lsb)) s'
  rwa [hmsb, hlsb] at h

/-- A field's value is what stands at its place in the packed word (R24). -/
theorem field_of_packed {v : Field → Nat} (h : InRange v) (f : Field) :
    (word16 (msbOfFields v) (lsbOfFields v)).toNat / 2 ^ Field.low f % 2 ^ Field.width f = v f := by
  obtain ⟨hmsb, hlsb⟩ := bytesOfFields_toNat h
  have hlimits := fieldOperands_inRange.1 (inRange_iff.1 h)
  rw [word16_toNat, hmsb, hlsb]
  cases f <;> simp only [Field.low, Field.width] <;> omega

/-- A bit of a packed word that a field covers is a bit of the field's value, at the field's place (R24). -/
theorem packed_bit {v : Field → Nat} (h : InRange v) {f : Field} {i : Nat} (hf : Field.covers f i = true) :
    (word16 (msbOfFields v) (lsbOfFields v)).getLsbD i = (v f).testBit (i - Field.low f) := by
  have hplace : Field.low f ≤ i ∧ i < Field.low f + Field.width f := by simpa [Field.covers] using hf
  rw [← field_of_packed h f, Nat.testBit_mod_two_pow, Nat.testBit_div_two_pow, BitVec.testBit_toNat,
    decide_eq_true (by omega : i - Field.low f < Field.width f), Nat.sub_add_cancel hplace.1, Bool.true_and]

/-- Every bit of the word belongs to a field (R24). -/
theorem exists_covers {i : Nat} (hi : i < 16) : ∃ f, Field.covers f i = true := by
  have h : ∀ i < 16, [Field.os, .mux, .pga, .mode, .dr, .cmode, .cpol, .clat, .cque].any
      (Field.covers · i) = true := by decide
  obtain ⟨f, -, hf⟩ := List.any_eq_true.1 (h i hi)
  exact ⟨f, hf⟩

/-- Settles O15: a bit outside the field is one of another field's value, which is the same in both. -/
theorem encIsolatesFields : Obligations.EncIsolatesFields := by
  intro s v v' f hv hv' hsame
  refine ⟨_, _, _, _, exec_encOf hv s, exec_encOf hv' s, fun i hi hout => ?_⟩
  obtain ⟨g, hg⟩ := exists_covers hi
  have hne : g ≠ f := fun h => by rw [h, hout] at hg; cases hg
  rw [packed_bit hv hg, packed_bit hv' hg, hsame g hne]

/-- Settles O56: a field's limit is at most that of a port of three bits. -/
theorem legalCodesFitHardwarePorts : Obligations.LegalCodesFitHardwarePorts := by
  intro v hv
  have hport (f : Field) : v f < 2 ^ Config.wIn := by
    have hwidth : Field.width f ≤ Config.wIn :=
      calc Field.width f ≤ 3 := by cases f <;> decide
        _ ≤ Config.wIn := Nat.le_add_right 3 _
    exact (hv f).trans_le (Nat.pow_le_pow_right (by decide) hwidth)
  simp [Request.fitsPorts, encode, encOf, hport]

end Sys2Proof.Machine
end

section
/-! SUPPORT. 42_gain_scaler.md: the GainTable by its columns, and what GAINLUT and SCALE answer by it. -/

namespace Sys2Proof.Machine

/-- Codes 0 to 5 have an entry (R140). -/
theorem exists_gainEntry {gain : BitVec 3} (h : gain.toNat < 6) : ∃ e, gainEntry gain = some e := by
  obtain ⟨-, k, -, he⟩ | ⟨hge, -⟩ := gainEntry_cases gain
  · exact ⟨_, he⟩
  · omega

/-- Codes 6 and 7 have none (R141, D7). -/
theorem gainEntry_eq_none {gain : BitVec 3} (h : 6 ≤ gain.toNat) : gainEntry gain = none := by
  obtain ⟨hlt, -⟩ | ⟨-, he⟩ := gainEntry_cases gain
  · omega
  · exact he

/-- The two columns of the table, as R140 lists them. -/
theorem gainEntry_fsrMv (gain : BitVec 3) :
    [6144, 4096, 2048, 1024, 512, 256][gain.toNat]? = (gainEntry gain).map GainEntry.fsrMv :=
  List.getElem?_map (f := GainEntry.fsrMv) (l := gainTable)

theorem gainEntry_lsbPv (gain : BitVec 3) :
    [187500000, 125000000, 62500000, 31250000, 15625000, 7812500][gain.toNat]? =
      (gainEntry gain).map GainEntry.lsbPv :=
  List.getElem?_map (f := GainEntry.lsbPv) (l := gainTable)

/-- The scale factor is the full-scale range over 32768 counts, exactly (R140). -/
theorem lsbPv_mul {gain : BitVec 3} {e : GainEntry} (h : gainEntry gain = some e) :
    e.lsbPv * 32768 = e.fsrMv * 1000000000 := by
  obtain ⟨-, k, -, he⟩ | ⟨-, he⟩ := gainEntry_cases gain
  · obtain rfl := Option.some.inj (he.symm.trans h)
    dsimp only
    omega
  · cases he.symm.trans h

/-- SCALE answers the exact product (R150, R151). -/
theorem exec_scale {gain : BitVec 3} {e : GainEntry} (h : gainEntry gain = some e) (s : State)
    (raw : Word16) :
    ∃ v : BitVec 64, exec (.scale raw gain) s = .next { s with result := some (.ok (.scale v)) } ∧
      v.toInt = raw.toInt * e.lsbPv :=
  ⟨_, execScale_ok h raw s, voltsPv_toInt raw h⟩

/-- Settles O7: the ports carry the entry, whose columns are the lists and whose product is exact. -/
theorem gainlutAnswersTheTable : Obligations.GainlutAnswersTheTable := by
  intro s gain
  refine ⟨fun hlt => ?_, fun hge => execGainlut_fault (gainEntry_eq_none hge) s⟩
  obtain ⟨e, he⟩ := exists_gainEntry hlt
  obtain ⟨hfsr, hlsb⟩ := gainEntry_ports he
  refine ⟨_, _, execGainlut_ok he s, ?_, ?_⟩
  · rw [gainEntry_fsrMv, he, hfsr]; rfl
  · rw [hfsr, hlsb, lsbPv_mul he]

/-- Settles O8: the s64 port holds the product, which is within R151's bound. -/
theorem scaleIsTheExactProduct : Obligations.ScaleIsTheExactProduct := by
  intro s raw gain
  refine ⟨fun lsb hlsb => ?_, fun hge => execScale_fault (gainEntry_eq_none hge) raw s⟩
  rw [gainEntry_lsbPv, Option.map_eq_some_iff] at hlsb
  obtain ⟨e, he, rfl⟩ := hlsb
  obtain ⟨v, hexec, hv⟩ := exec_scale he s raw
  exact ⟨v, hexec, hv, hv ▸ voltsPv_bound raw he⟩

/-- Settles O18: both forms are the product with the scale factor, by its exact relation to the range. -/
theorem readingIsExactInVolts : Obligations.ReadingIsExactInVolts := by
  intro s raw gain e he
  obtain ⟨v, hexec, hv⟩ := exec_scale he s raw
  have hlsb : (e.lsbPv : Rat) * 32768 = e.fsrMv * 1000000000 := by exact_mod_cast lsbPv_mul he
  have hvolts : readingVolts v = (raw.toInt : Rat) * (e.fsrMv : Rat) / 32768000 := by
    rw [readingVolts, hv]
    push_cast
    linear_combination (raw.toInt : Rat) / 32768000000000000 * hlsb
  refine ⟨v, hexec, hvolts, ?_⟩
  rw [hvolts, GainEntry.voltsPerCount]
  ring

/-- Settles O19: the table is listed in that order. -/
theorem gainTableStrictlyDecreases : Obligations.GainTableStrictlyDecreases := by
  intro gain gain' e e' he he' hlt
  have hsorted : gainTable.Pairwise fun e e' => e'.fsrMv < e.fsrMv ∧ e'.lsbPv < e.lsbPv := by decide
  obtain ⟨hi, rfl⟩ := List.getElem?_eq_some_iff.1 he
  obtain ⟨hj, rfl⟩ := List.getElem?_eq_some_iff.1 he'
  exact List.pairwise_iff_getElem.1 hsorted _ _ hi hj hlt

/-- Settles O20: both readings are products with one scale factor. -/
theorem scaleIsOddAndLinear : Obligations.ScaleIsOddAndLinear := by
  intro s r1 r2 gain hlt
  obtain ⟨e, he⟩ := exists_gainEntry hlt
  obtain ⟨v1, hexec1, hv1⟩ := exec_scale he s r1
  obtain ⟨v2, hexec2, hv2⟩ := exec_scale he s r2
  refine ⟨v1, v2, e, he, hexec1, hexec2, ?_, fun hneg => ?_⟩
  · rw [hv1, hv2]; ring
  · rw [hv1, hv2, hneg]; ring

end Sys2Proof.Machine
end

section
/-! SUPPORT. 40_config_codec.md R120, R121: the channel table read in both directions. -/

namespace Sys2Proof.Machine

/-- The label at a code's place in the list is the one that has the code, and the only one (R89, R121). -/
theorem channelCode_eq_some {label : String} {mux : BitVec 3} :
    channelCode label = some mux ↔ channelLabels[mux.toNat]? = some label := by
  constructor
  · intro h
    have hrow : ∀ e ∈ channelTable, channelLabels[e.2.toNat]? = some e.1 := by decide
    exact hrow (label, mux) (mem_of_lookup h)
  · intro h
    have hcode : ∀ mux : BitVec 3, channelLabels[mux.toNat]?.bind channelCode = some mux := by decide
    simpa [h] using hcode mux

/-- CHSEL answers a code exactly where the table has it for the label (R120). -/
theorem exec_chsel_iff {label : String} {mux : BitVec 3} {s : State} :
    exec (.chsel label) s = .next { s with result := some (.ok (.chsel mux)) } ↔
      channelCode label = some mux := by
  constructor
  · intro h
    cases hc : channelCode label with
    | none => cases result_inj ((execChsel_fault hc s).symm.trans h)
    | some m =>
      cases result_inj ((execChsel_ok hc s).symm.trans h)
      rfl
  · exact fun h => execChsel_ok h s

/-- A label that is not one of the eight faults (R120, D10). -/
theorem exec_chsel_unknown {label : String} (h : label ∉ channelLabels) (s : State) :
    exec (.chsel label) s = .next { s with result := some (.fault .unknownChannel) } :=
  execChsel_fault (channelCode_eq_none.2 h) s

/-- Settles O9: the list and the table are the same. -/
theorem chselKnowsExactlyEightLabels : Obligations.ChselKnowsExactlyEightLabels := by
  intro s label
  exact ⟨fun mux h => exec_chsel_iff.2 (channelCode_eq_some.2 h), fun h => exec_chsel_unknown h s⟩

/-- Settles O16: the label at the code's place has it, and any label that has it stands there. -/
theorem everyMuxCodeHasOneLabel : Obligations.EveryMuxCodeHasOneLabel := by
  intro s mux
  have hlt : mux.toNat < channelLabels.length := mux.isLt
  have hlabel : channelLabels[mux.toNat]? = some channelLabels[mux.toNat] := List.getElem?_eq_getElem hlt
  refine ⟨channelLabels[mux.toNat], exec_chsel_iff.2 (channelCode_eq_some.2 hlabel), fun other hother => ?_⟩
  have hthere := channelCode_eq_some.1 (exec_chsel_iff.1 hother)
  exact Option.some.inj (hthere.symm.trans hlabel)

/-- Settles O12: each check that fails raises its fault, and nothing stands in for the value. -/
theorem noOperationSubstitutesADefault : Obligations.NoOperationSubstitutesADefault := by
  intro s
  refine ⟨fun label h => exec_chsel_unknown h s, fun v hv => ?_, fun gain raw hge =>
    ⟨execGainlut_fault (gainEntry_eq_none hge) s, execScale_fault (gainEntry_eq_none hge) raw s⟩⟩
  obtain ⟨f, hf⟩ := Option.ne_none_iff_exists'.1 (mt inRange_iff.2 hv)
  exact ⟨f, execEnc_fault hf s⟩

/-- Settles O54: the eight codes are evaluated. -/
theorem labelsSelectTheirPins : Obligations.LabelsSelectTheirPins := by
  unfold Obligations.LabelsSelectTheirPins
  decide

end Sys2Proof.Machine
end

section
/-! SUPPORT. 43_register_framing.md and 41_result_codec.md: frames, and DECR read backwards. -/

namespace Sys2Proof.Machine

/-- Settles O10: CFGFRAME's answer is that frame. -/
theorem cfgframePrefixesConfigPointer : Obligations.CfgframePrefixesConfigPointer := fun _ _ _ => rfl

/-- Settles O11: CONVFRAME's answer is that constant. -/
theorem convframeIsConstant : Obligations.ConvframeIsConstant := fun _ => rfl

/-- Settles O17: the two bytes are the halves of the sample's word, and DECR's word determines its halves. -/
theorem decrInvertsRawBytes : Obligations.DecrInvertsRawBytes := by
  intro s raw hlow hhigh
  have hword : (BitVec.ofInt 16 raw).toInt = raw := by
    rw [BitVec.toInt_ofInt, Int.bmod_eq_of_le] <;> omega
  refine ⟨BitVec.ofInt 16 raw, hword, ?_, fun high low h => ?_⟩
  · rw [bytesOfRaw, execDecr_pair, word16_of_halves]
    rfl
  · have hresult : Result.ok (.decr (word16 high low)) = .ok (.decr (BitVec.ofInt 16 raw)) :=
      result_inj ((execDecr_pair high low s).symm.trans h)
    have heq : word16 high low = BitVec.ofInt 16 raw := by injection hresult with h; injection h
    rw [bytesOfRaw, ← heq, msbOf_word16, lsbOf_word16]

/-- A literal that its port carries is its own value (R92). -/
theorem portValue_lit {results : List (Nat × Result)} {k : PortKind} {v : Int} (h : k.carries v = true) :
    portValue results (k, .lit v) = .ok v :=
  portValue_eq_ok.2 ⟨rfl, h⟩

/-- ENCSS on three literals is ENC on them with the defaults (R93). -/
theorem toRequest_encss_lit (results : List (Nat × Result)) (mux pga dr : Nat) :
    Line.toRequest results (.encss (.lit mux) (.lit pga) (.lit dr)) =
      .ok (encode (.enc 1 mux pga 1 dr 0 0 0 3)) := by
  have hlit (n : Nat) : portValue results (.nat, .lit n) = .ok (n : Int) :=
    portValue_lit (by simp [PortKind.carries])
  have hvalues : portValues results (Line.ports (.encss (.lit mux) (.lit pga) (.lit dr))) =
      .ok [(mux : Int), (pga : Int), (dr : Int)] :=
    portValues_eq_ok.2 (.cons (hlit mux) (.cons (hlit pga) (.cons (hlit dr) .nil)))
  rw [toRequest_eq, hvalues]
  rfl

/-- Settles O21: each operation of the frame is known on these operands. -/
theorem singleShotFrameBytes : Obligations.SingleShotFrameBytes := by
  intro s results mux gain dr label hlabel
  have hmux := mux.isLt
  have hgain := gain.isLt
  have hdr := dr.isLt
  have hrange : firstOutOfRange (fieldOperands 1 mux.toNat gain.toNat 1 dr.toNat 0 0 0 3) = none :=
    fieldOperands_inRange.2 ⟨by decide, hmux, hgain, by decide, hdr, by decide, by decide, by decide,
      by decide⟩
  refine ⟨_, _, exec_chsel_iff.2 (channelCode_eq_some.2 hlabel), toRequest_encss_lit results _ _ _,
    execEnc_ok hrange s, rfl, ?_, ?_⟩
  · rw [packMsb_toNat (by decide) hmux hgain (by decide)]
  · rw [packLsb_toNat hdr (by decide) (by decide) (by decide) (by decide)]

end Sys2Proof.Machine
end

section
/-! SUPPORT. Constants: the data rates (30_encoding.md R84) and the registers after power-up (10_state.md R27
to R29). -/

namespace Sys2Proof.Machine

/-- Settles O53: the eight codes are evaluated. -/
theorem conversionTimesAreExact : Obligations.ConversionTimesAreExact := by
  unfold Obligations.ConversionTimesAreExact
  decide

/-- Settles O55: no session is listed at reset, so every address has one that nothing has touched. -/
theorem powerUpRegisterValues : Obligations.PowerUpRegisterValues := by
  intro a
  have hsession : State.reset.session a = Session.powerUp := rfl
  rw [hsession]
  exact ⟨rfl, rfl, rfl, rfl, rfl, rfl, rfl, rfl⟩

end Sys2Proof.Machine
end
